-- ==== Sys2Proof/Word.lean ====
section
/-!
DEFINITION. The word types of the block (spec 00_scope.md R9, R10: every value is unsigned, a frame byte has 8 bits,
a register address, a quantity, a data word and the CRC have 16), and the two ways a frame operand is given.
-/

namespace Sys2Proof

/-- `u8` of R10: a frame byte, a slave address, a function code, a byte count, an exception code, the command word. -/
abbrev Byte := BitVec 8

/-- `u16` of R10: the CRC, a register address, a quantity, a data word. -/
abbrev Half := BitVec 16

/-- Where DEC_RESP and PARSE_REQ find their operand `buf[0..len)` (R26, R40, R41). -/
inductive BufOperand where
  /-- The host presents the frame bytes with the command (R26, R72): they fill the frame input buffer, and their
  number is `len`. -/
  | presented (bytes : List Byte)
  /-- The host has filled the frame input buffer since the last command (R40), and that frame is presented with this
  command. -/
  | held
deriving DecidableEq, Repr

end Sys2Proof
end

