-- ==== Sys2Proof/Config.lean ====
section
/-!
DEFINITION. The parameters of 00_scope.md R8, the one OPEN parameter among them, and the values the model names itself.
-/

namespace Sys2Proof

/-- `EXC_MATCH` (R8, R133, decision D10): how DEC_RESP recognises an exception response. -/
inductive ExcMatch where
  /-- Only `fc OR 0x80` is an exception response. -/
  | strict
  /-- Every function byte with bit 7 set is an exception response. -/
  | bit7
deriving DecidableEq, Repr, Inhabited

namespace Config

/-- `CRC_POLY` (R8): the reflected polynomial constant. -/
abbrev crcPoly : Half := 0xA001#16

/-- `CRC_INIT_VALUE` (R8): the value the CRC starts a frame with. -/
abbrev crcInitValue : Half := 0xFFFF#16

/-- `CRC_XOROUT` (R8, decision D4): XORed onto the final CRC. -/
abbrev crcXorOut : Half := 0x0000#16

/-- `MIN_QTY` (R8). -/
abbrev minQty : Nat := 1

/-- `MAX_QTY` (R8): the largest register count of one request, function codes 3 and 4. -/
abbrev maxQty : Nat := 125

/-- `REQ_LEN` (R8). -/
abbrev reqLen : Nat := 8

/-- `EXC_LEN` (R8). -/
abbrev excLen : Nat := 5

/-- `MIN_RESP_LEN` (R8): the shortest frame DEC_RESP examines past the length check. -/
abbrev minRespLen : Nat := 5

/-- `FRAME_BUF_BYTES` (R8): the capacity of the frame input buffer. -/
abbrev frameBufBytes : Nat := 256

/-- Read holding registers (R65). -/
abbrev fcReadHolding : Byte := 0x03#8

/-- Read input registers (R65). -/
abbrev fcReadInput : Byte := 0x04#8

/-- The bit a response sets in the function code to signal a device exception (R62, R65). -/
abbrev excFlag : Byte := 0x80#8

/-- `EXC_MATCH` itself is OPEN (R8, R133): a constant with no body, so that a claim holds for both values or takes the
value it needs as a hypothesis. DESIGN CHOICE, safe: assumption 1. -/
opaque excMatch : ExcMatch

/-- What `crc` holds after a reset. The spec gives it no value (R25, R190). DESIGN CHOICE, unsafe: assumption 2. -/
abbrev crcResetValue : Half := 0x0000#16

/-- What an index of the frame input buffer that the host has not filled reads as; the spec gives none (R41).
DESIGN CHOICE, unsafe: assumption 3. -/
abbrev unfilledByte : Byte := 0x00#8

end Config

end Sys2Proof
end

