-- ==== Sys2Proof/Syntax.lean ====
section
/-!
DEFINITION. One constructor per row of spec/opcode_table.json: the six commands and the reserved catch-all (rows of format
`cmd`, 30_encoding.md R70, R71), then the frame kinds (rows of format `rtu_*`, R60 to R62, R133).
-/

namespace Sys2Proof

/-- What the host gives the block: a command with the operands it uses, or a frame handed to its frame input buffer. -/
inductive Instr where
  /-- CRC_INIT (R102). -/
  | crcInit
  /-- CRC_UPDATE `b` (R103). -/
  | crcUpdate (b : Byte)
  /-- CRC_READ (R104). -/
  | crcRead
  /-- ENC_REQ `sa, fc, ra, qty` (R120). -/
  | encReq (sa fc : Byte) (ra qty : Half)
  /-- DEC_RESP `buf[0..len), sa, fc, qty` (R130). -/
  | decResp (buf : BufOperand) (sa fc : Byte) (qty : Half)
  /-- PARSE_REQ `buf[0..len)` (R150). -/
  | parseReq (buf : BufOperand)
  /-- RESERVED: any command value that R70 does not assign (R71). -/
  | reserved (cmd : Byte)
  /-- A read-request frame with function code 3 (R60): slave address, register address, quantity, CRC field. -/
  | frameReadRequestFc3 (sa : Byte) (ra qty crc : Half)
  /-- A read-request frame with function code 4 (R60). -/
  | frameReadRequestFc4 (sa : Byte) (ra qty crc : Half)
  /-- A normal read-response frame with function code 3 (R61): slave address, data words, CRC field; its byte count is
  twice the number of words. -/
  | frameReadResponseFc3 (sa : Byte) (words : List Half) (crc : Half)
  /-- A normal read-response frame with function code 4 (R61). -/
  | frameReadResponseFc4 (sa : Byte) (words : List Half) (crc : Half)
  /-- An exception-response frame to code 3, function byte 0x83 (R62). -/
  | frameExceptionFc3 (sa code : Byte) (crc : Half)
  /-- An exception-response frame to code 4, function byte 0x84 (R62). -/
  | frameExceptionFc4 (sa code : Byte) (crc : Half)
  /-- A 5-byte frame of the exception layout whose function byte has bit 7 set and is neither 0x83 nor 0x84 (R133). -/
  | frameExceptionAnyBit7 (sa fc code : Byte) (crc : Half)
deriving DecidableEq, Repr

end Sys2Proof
end

