-- ==== Sys2Proof/WellFormed.lean ====
section
/-!
DEFINITION. Which instructions the encodings of 30_encoding.md can express.
-/

namespace Sys2Proof

/-- A command word that R70 assigns to a command. -/
def assignedCommand (cmd : Byte) : Bool :=
  cmd = 0x01#8 || cmd = 0x02#8 || cmd = 0x03#8 || cmd = 0x10#8 || cmd = 0x20#8 || cmd = 0x21#8

/-- A presented frame fits the frame input buffer (R26, R41). -/
def BufOperand.wf : BufOperand → Bool
  | .presented bytes => bytes.length ≤ Config.frameBufBytes
  | .held => true

/-- The data of a normal response: 1 to 125 words (R61, R64). -/
def responseWordsWf (words : List Half) : Bool :=
  Config.minQty ≤ words.length && words.length ≤ Config.maxQty

/-- A function byte of the row for any other high-bit-set code (R133 and the table's note). -/
def otherExceptionCode (fc : Byte) : Bool := fc.msb && fc != 0x83#8 && fc != 0x84#8

/-- An instruction that the encodings can express. -/
def Instr.wf : Instr → Bool
  | .crcInit => true
  | .crcUpdate _ => true
  | .crcRead => true
  | .encReq _ _ _ _ => true
  | .decResp buf _ _ _ => buf.wf
  | .parseReq buf => buf.wf
  | .reserved cmd => !assignedCommand cmd
  | .frameReadRequestFc3 _ _ _ _ => true
  | .frameReadRequestFc4 _ _ _ _ => true
  | .frameReadResponseFc3 _ words _ => responseWordsWf words
  | .frameReadResponseFc4 _ words _ => responseWordsWf words
  | .frameExceptionFc3 _ _ _ => true
  | .frameExceptionFc4 _ _ _ => true
  | .frameExceptionAnyBit7 _ fc _ _ => otherExceptionCode fc

end Sys2Proof
end

