-- ==== Sys2Proof/Decode.lean ====
section
/-!
DEFINITION. The encodings (30_encoding.md): what the host presents, the byte-order helpers, the decoder (total, rejecting
by name) and, after it, the encoder; the opcode table as rows; the row words the host pipeline asks about.
The command interface has whole operands and no byte order (R26, D24), so a command's encoding is its command word and the
operand inputs beside it; a frame's encoding is its bytes in wire order.
-/

namespace Sys2Proof

/-! ## Notation of R10 and the byte order of R43, R45 -/

/-- `lo(w) = w[7:0]` (R10). -/
def lo (w : Half) : Byte := w.extractLsb' 0 8

/-- `hi(w) = w[15:8]` (R10). -/
def hi (w : Half) : Byte := w.extractLsb' 8 8

/-- `zext_16(b)` (R10). -/
def zext16 (b : Byte) : Half := b.setWidth 16

/-- `be16(h, l) = (zext_16(h) << 8) OR zext_16(l)` (R10). -/
def be16 (h l : Byte) : Half := (zext16 h <<< 8) ||| zext16 l

/-- A 16-bit value as two bytes, high byte first (R43: addresses, quantities, data words). -/
def bigEndian (w : Half) : List Byte := [hi w, lo w]

/-- A 16-bit value as two bytes, low byte first (R43: the CRC of every frame). -/
def littleEndian (w : Half) : List Byte := [lo w, hi w]

/-- Data words in wire order, each high byte first (R43, R44, R61). -/
def wordBytes : List Half → List Byte
  | [] => []
  | w :: ws => hi w :: lo w :: wordBytes ws

/-- The data words of a sequence of bytes, taken two at a time, high byte first (R43, R44). -/
def pairWords : List Byte → List Half
  | h :: l :: bs => be16 h l :: pairWords bs
  | _ => []

/-! ## Frame layouts with the CRC field as received (R60 to R62) -/

/-- The 6 bytes before the CRC field of a read-request frame, `ReqBody` (R60). -/
def reqBody (sa fc : Byte) (ra q : Half) : List Byte := [sa, fc] ++ bigEndian ra ++ bigEndian q

/-- The bytes before the CRC field of a normal read-response frame, `RespBody` (R61). -/
def respBody (sa fc : Byte) (ws : List Half) : List Byte :=
  [sa, fc, BitVec.ofNat 8 (2 * ws.length)] ++ wordBytes ws

/-- The 3 bytes before the CRC field of an exception-response frame whose function byte is `f` (R62). -/
def excBodyRaw (sa f e : Byte) : List Byte := [sa, f, e]

/-! ## What the host presents -/

/-- The operand inputs `buf` and `len` (R26): the bytes the host lists from index 0 on, and how many bytes are valid.
They are naturals, so that a value too wide for its input can be presented and refused (R171). -/
structure BufInput where
  bytes : List Nat
  len : Nat
deriving DecidableEq, Repr

/-- A command at the command interface (R26): the command word and the operand inputs. `buf = none` says that the host
presents the frame it has filled the buffer with since the last command (R40). -/
structure CommandInput where
  cmd : Nat
  b : Nat := 0
  sa : Nat := 0
  fc : Nat := 0
  ra : Nat := 0
  qty : Nat := 0
  buf : Option BufInput := none
deriving DecidableEq, Repr

/-- The frame formats of the opcode table. -/
inductive FrameFormat where
  | rtuRequest
  | rtuResponse
  | rtuException
deriving DecidableEq, Repr

/-- An encoded instruction: a command at the interface, or a frame of a format as its bytes in wire order. -/
inductive Encoded where
  | command (c : CommandInput)
  | frame (fmt : FrameFormat) (bytes : List Byte)
deriving DecidableEq, Repr

/-- Why the decoder rejects what the host presents. -/
inductive DecodeError where
  /-- An operand the command uses, or the command word, does not fit its width (R171). -/
  | operandTooWide
  /-- `len` is above `FRAME_BUF_BYTES` (R26, R171). -/
  | frameTooLong
  /-- The bytes are no frame of the format they are handed as: no row of the opcode table names them. -/
  | unrecognisedFrame (bytes : List Byte)
deriving DecidableEq, Repr

/-! ## The command word (R70) -/

abbrev cmdCrcInit : Byte := 0x01#8
abbrev cmdCrcUpdate : Byte := 0x02#8
abbrev cmdCrcRead : Byte := 0x03#8
abbrev cmdEncReq : Byte := 0x10#8
abbrev cmdDecResp : Byte := 0x20#8
abbrev cmdParseReq : Byte := 0x21#8

/-- An operand of width `w` as the host presents it (R26): a value that does not fit is rejected (R171). -/
def operand (w v : Nat) : Except DecodeError (BitVec w) :=
  if v < 2 ^ w then .ok (BitVec.ofNat w v) else .error .operandTooWide

/-- The listed bytes of the buffer operand, each of 8 bits. -/
def operandBytes : List Nat → Except DecodeError (List Byte)
  | [] => .ok []
  | v :: vs =>
    match operand 8 v, operandBytes vs with
    | .ok b, .ok bs => .ok (b :: bs)
    | .error e, _ => .error e
    | _, .error e => .error e

/-- The buffer operand (R26, R41): `len` bytes from index 0 on. Entries at index `len` and above have no effect (R41), not
even by their width; an index below `len` that the host lists no byte for reads as `Config.unfilledByte`. -/
def bufOperand : Option BufInput → Except DecodeError BufOperand
  | none => .ok .held
  | some inp =>
    if Config.frameBufBytes < inp.len then .error .frameTooLong
    else
      match operandBytes (inp.bytes.take inp.len) with
      | .ok bs => .ok (.presented (bs ++ List.replicate (inp.len - bs.length) Config.unfilledByte))
      | .error e => .error e

/-! ## The decoder -/

/-- The command that the word `cmd` selects (R70, R71), with the operands it uses and no other (R26: "An operand the command
does not use is ignored"). -/
def decodeOperands (cmd : Byte) (c : CommandInput) : Except DecodeError Instr :=
  if cmd = cmdCrcInit then .ok .crcInit
  else if cmd = cmdCrcUpdate then do return .crcUpdate (← operand 8 c.b)
  else if cmd = cmdCrcRead then .ok .crcRead
  else if cmd = cmdEncReq then do
    return .encReq (← operand 8 c.sa) (← operand 8 c.fc) (← operand 16 c.ra) (← operand 16 c.qty)
  else if cmd = cmdDecResp then do
    return .decResp (← bufOperand c.buf) (← operand 8 c.sa) (← operand 8 c.fc) (← operand 16 c.qty)
  else if cmd = cmdParseReq then do return .parseReq (← bufOperand c.buf)
  else .ok (.reserved cmd)

/-- Decoding a command: the whole 8-bit command word selects the row (R70). -/
def decodeCommand (c : CommandInput) : Except DecodeError Instr := do
  decodeOperands (← operand 8 c.cmd) c

/-- The length a reader of a response byte stream tells from the function byte and the third byte (R69). -/
def responseLength (f third : Byte) : Nat := if f.msb then 5 else 5 + third.toNat

/-- The first response frame of a byte stream and what follows it, when the stream holds all of it (R69). -/
def splitResponse : List Byte → Option (List Byte × List Byte)
  | sa :: f :: third :: rest =>
    let n := responseLength f third
    if n ≤ (sa :: f :: third :: rest).length then
      some ((sa :: f :: third :: rest).take n, (sa :: f :: third :: rest).drop n)
    else none
  | _ => none

/-- Decoding a read-request frame (R60): exactly 8 bytes, function code 3 or 4. -/
def decodeRequestFrame : List Byte → Option Instr
  | [sa, f, a1, a0, q1, q0, c0, c1] =>
    if f = Config.fcReadHolding then some (.frameReadRequestFc3 sa (be16 a1 a0) (be16 q1 q0) (be16 c1 c0))
    else if f = Config.fcReadInput then some (.frameReadRequestFc4 sa (be16 a1 a0) (be16 q1 q0) (be16 c1 c0))
    else none
  | _ => none

/-- Decoding a normal read-response frame (R61, R64): function code 3 or 4, an even byte count from 2 to 250 that the length
agrees with. -/
def decodeResponseFrame : List Byte → Option Instr
  | sa :: f :: bc :: rest =>
    if rest.length + 3 = responseLength f bc ∧ bc.toNat % 2 = 0 ∧ 2 ≤ bc.toNat ∧ bc.toNat ≤ 2 * Config.maxQty then
      match rest.drop bc.toNat with
      | [c0, c1] =>
        if f = Config.fcReadHolding then
          some (.frameReadResponseFc3 sa (pairWords (rest.take bc.toNat)) (be16 c1 c0))
        else if f = Config.fcReadInput then
          some (.frameReadResponseFc4 sa (pairWords (rest.take bc.toNat)) (be16 c1 c0))
        else none
      | _ => none
    else none
  | _ => none

/-- Decoding an exception-response frame (R62, R133): exactly 5 bytes, function byte with bit 7 set. The rows for 0x83 and
0x84 go before the row for any other such byte (the table's note). -/
def decodeExceptionFrame : List Byte → Option Instr
  | [sa, f, e, c0, c1] =>
    if f = 0x83#8 then some (.frameExceptionFc3 sa e (be16 c1 c0))
    else if f = 0x84#8 then some (.frameExceptionFc4 sa e (be16 c1 c0))
    else if f.msb then some (.frameExceptionAnyBit7 sa f e (be16 c1 c0))
    else none
  | _ => none

/-- Decoding a frame of a format. -/
def decodeFrame : FrameFormat → List Byte → Option Instr
  | .rtuRequest, bs => decodeRequestFrame bs
  | .rtuResponse, bs => decodeResponseFrame bs
  | .rtuException, bs => decodeExceptionFrame bs

/-- The decoder: total, rejecting by name. -/
def decode : Encoded → Except DecodeError Instr
  | .command c => decodeCommand c
  | .frame fmt bs =>
    match decodeFrame fmt bs with
    | some i => .ok i
    | none => .error (.unrecognisedFrame bs)

/-! ## The encoder -/

/-- The buffer operand as the host presents it. -/
def BufOperand.toInput : BufOperand → Option BufInput
  | .held => none
  | .presented bs => some { bytes := bs.map (·.toNat), len := bs.length }

/-- The bytes of a frame row's layout, the CRC field as the frame carries it (R60 to R62); a command has none. -/
def frameBytes : Instr → List Byte
  | .frameReadRequestFc3 sa ra q c => reqBody sa Config.fcReadHolding ra q ++ littleEndian c
  | .frameReadRequestFc4 sa ra q c => reqBody sa Config.fcReadInput ra q ++ littleEndian c
  | .frameReadResponseFc3 sa ws c => respBody sa Config.fcReadHolding ws ++ littleEndian c
  | .frameReadResponseFc4 sa ws c => respBody sa Config.fcReadInput ws ++ littleEndian c
  | .frameExceptionFc3 sa e c => excBodyRaw sa 0x83#8 e ++ littleEndian c
  | .frameExceptionFc4 sa e c => excBodyRaw sa 0x84#8 e ++ littleEndian c
  | .frameExceptionAnyBit7 sa f e c => excBodyRaw sa f e ++ littleEndian c
  | .crcInit | .crcUpdate _ | .crcRead | .encReq _ _ _ _ | .decResp _ _ _ _ | .parseReq _ | .reserved _ => []

/-- The encoder: the command word and the operands the command uses (R70, R72), or the frame's bytes. -/
def encode : Instr → Encoded
  | .crcInit => .command { cmd := cmdCrcInit.toNat }
  | .crcUpdate b => .command { cmd := cmdCrcUpdate.toNat, b := b.toNat }
  | .crcRead => .command { cmd := cmdCrcRead.toNat }
  | .encReq sa fc ra qty =>
    .command { cmd := cmdEncReq.toNat, sa := sa.toNat, fc := fc.toNat, ra := ra.toNat, qty := qty.toNat }
  | .decResp buf sa fc qty =>
    .command { cmd := cmdDecResp.toNat, sa := sa.toNat, fc := fc.toNat, qty := qty.toNat, buf := buf.toInput }
  | .parseReq buf => .command { cmd := cmdParseReq.toNat, buf := buf.toInput }
  | .reserved cmd => .command { cmd := cmd.toNat }
  | .frameReadRequestFc3 sa ra q c => .frame .rtuRequest (frameBytes (.frameReadRequestFc3 sa ra q c))
  | .frameReadRequestFc4 sa ra q c => .frame .rtuRequest (frameBytes (.frameReadRequestFc4 sa ra q c))
  | .frameReadResponseFc3 sa ws c => .frame .rtuResponse (frameBytes (.frameReadResponseFc3 sa ws c))
  | .frameReadResponseFc4 sa ws c => .frame .rtuResponse (frameBytes (.frameReadResponseFc4 sa ws c))
  | .frameExceptionFc3 sa e c => .frame .rtuException (frameBytes (.frameExceptionFc3 sa e c))
  | .frameExceptionFc4 sa e c => .frame .rtuException (frameBytes (.frameExceptionFc4 sa e c))
  | .frameExceptionAnyBit7 sa f e c => .frame .rtuException (frameBytes (.frameExceptionAnyBit7 sa f e c))

/-! ## The opcode table as rows -/

/-- The formats of the opcode table's rows. -/
inductive RowFormat where
  | cmd
  | frame (fmt : FrameFormat)
deriving DecidableEq, Repr

/-- One row: its mnemonic, its format, and the match and mask of its selecting byte (the command word of a command, the
function byte of a frame). -/
structure Row where
  mnemonic : String
  format : RowFormat
  value : Byte
  mask : Byte
deriving DecidableEq, Repr

/-- The row a constructor stands for (spec/opcode_table.json). -/
def Instr.row : Instr → Row
  | .crcInit => ⟨"CRC_INIT", .cmd, 0x01#8, 0xFF#8⟩
  | .crcUpdate _ => ⟨"CRC_UPDATE", .cmd, 0x02#8, 0xFF#8⟩
  | .crcRead => ⟨"CRC_READ", .cmd, 0x03#8, 0xFF#8⟩
  | .encReq _ _ _ _ => ⟨"ENC_REQ", .cmd, 0x10#8, 0xFF#8⟩
  | .decResp _ _ _ _ => ⟨"DEC_RESP", .cmd, 0x20#8, 0xFF#8⟩
  | .parseReq _ => ⟨"PARSE_REQ", .cmd, 0x21#8, 0xFF#8⟩
  | .reserved _ => ⟨"RESERVED", .cmd, 0x00#8, 0x00#8⟩
  | .frameReadRequestFc3 _ _ _ _ => ⟨"FRAME_READ_REQUEST_FC3", .frame .rtuRequest, 0x03#8, 0xFF#8⟩
  | .frameReadRequestFc4 _ _ _ _ => ⟨"FRAME_READ_REQUEST_FC4", .frame .rtuRequest, 0x04#8, 0xFF#8⟩
  | .frameReadResponseFc3 _ _ _ => ⟨"FRAME_READ_RESPONSE_FC3", .frame .rtuResponse, 0x03#8, 0xFF#8⟩
  | .frameReadResponseFc4 _ _ _ => ⟨"FRAME_READ_RESPONSE_FC4", .frame .rtuResponse, 0x04#8, 0xFF#8⟩
  | .frameExceptionFc3 _ _ _ => ⟨"FRAME_EXCEPTION_FC3", .frame .rtuException, 0x83#8, 0xFF#8⟩
  | .frameExceptionFc4 _ _ _ => ⟨"FRAME_EXCEPTION_FC4", .frame .rtuException, 0x84#8, 0xFF#8⟩
  | .frameExceptionAnyBit7 _ _ _ _ => ⟨"FRAME_EXCEPTION_ANY_BIT7", .frame .rtuException, 0x80#8, 0x80#8⟩

/-- The byte that selects the row: the command word, or byte 1 of a frame. -/
def Encoded.selector : Encoded → Nat
  | .command c => c.cmd
  | .frame _ bs => (bs.getD 1 0#8).toNat

/-- The format of what the host presents. -/
def Encoded.format : Encoded → RowFormat
  | .command _ => .cmd
  | .frame fmt _ => .frame fmt

/-! ## The row words the host pipeline asks about -/

/-- A frame whose function byte is `f` and whose other bytes are zero. -/
def zeroFrame (n : Nat) (f : Byte) : List Byte := 0x00#8 :: f :: List.replicate (n - 2) 0x00#8

/-- The instruction whose bits are `w` in the opcode table's numbering, everything above them zero. A command row gives bits
7 to 0 of the command word; a frame row gives the function byte. A word that is no command's and that a frame row names as
its own is a frame of that row; every other word is a command word with every operand input zero (an empty frame for
`buf`, `len`). Assumption 9. -/
def tableWord (nbits w : Nat) : Encoded :=
  let v := w % 2 ^ nbits
  if v = 0x04 then .frame .rtuRequest (zeroFrame Config.reqLen 0x04#8)
  else if v = 0x83 then .frame .rtuException (zeroFrame Config.excLen 0x83#8)
  else if v = 0x84 then .frame .rtuException (zeroFrame Config.excLen 0x84#8)
  else if v = 0x80 then .frame .rtuException (zeroFrame Config.excLen 0x80#8)
  else .command { cmd := v, buf := some { bytes := [], len := 0 } }

/-- The instruction the decoder reads from a table word. -/
def decodeTableWord (nbits w : Nat) : Option Instr :=
  match decode (tableWord nbits w) with
  | .ok i => some i
  | .error _ => none

end Sys2Proof
end

