-- ==== Sys2Proof/Machine/State.lean ====
section
/-!
DEFINITION. The state of the block and of its interface (10_state.md), its results (R28), and why a step stops.
-/

namespace Sys2Proof.Machine

/-- The frame input buffer `buf[0..FRAME_BUF_BYTES)` (R41): index and byte, indices strictly rising, no entry equal to what
an unlisted index reads as (`Memory.wf`). -/
abbrev Memory := List Host.Cell

/-- The one reason of an `EncodingError` (R161). -/
inductive EncodingReason where
  | quantityOutOfRange
deriving DecidableEq, Repr

/-- The reasons of a `FrameError` (R162). -/
inductive FrameReason where
  | wrongLength
  | crcMismatch
  | addressMismatch
  | functionMismatch
  | byteCountMismatch
  | quantityOutOfRange
deriving DecidableEq, Repr

/-- The payload of an `Ok` result (R28), per command. -/
inductive Payload where
  /-- CRC_INIT and CRC_UPDATE return none. -/
  | none
  /-- CRC_READ: `crc_out`. -/
  | crc (crcOut : Half)
  /-- ENC_REQ: `out[0..8)`, `out_len` being the number of bytes. -/
  | request (out : List Byte)
  /-- DEC_RESP: `words`, `nwords` being their number. -/
  | words (ws : List Half)
  /-- PARSE_REQ: `f_sa`, `f_fc`, `f_ra`, `f_qty`. -/
  | fields (sa fc : Byte) (ra qty : Half)
deriving DecidableEq, Repr

/-- The result of a completed command (R28): a tagged value; what a kind does not name is absent (D22). -/
inductive Result where
  | ok (payload : Payload)
  | encodingError (reason : EncodingReason)
  | frameError (reason : FrameReason)
  | deviceExceptionError (code : Byte)
deriving DecidableEq, Repr

/-- What the host does next: it presents a command or a frame, or it asserts reset between commands (R190). -/
inductive HostInput where
  | present (e : Encoded)
  | reset
deriving DecidableEq, Repr

/-- Why a run ends in a fault. -/
inductive Fault where
  /-- `CrcNotInitialised` (R170): CRC_UPDATE or CRC_READ while `crc_valid = 0`. Raised by the two meanings. Safe. -/
  | crcNotInitialised
  /-- The run has ended: a fault or refusal mark stands, and such a run has no further commands (R200). Raised by
  `step` alone. Safe. -/
  | runEnded
deriving DecidableEq, Repr

/-- Why a command has no meaning (R171). -/
inductive Refusal where
  /-- An instruction of the table with no meaning yet: raised only by an arm of `exec` (none at present). Safe. -/
  | notModelled (mnemonic : String)
  /-- `ReservedCommand` (R71, R171): raised by RESERVED. Safe. -/
  | reservedCommand
  /-- `UnsupportedFunction` (R68, R171): raised by ENC_REQ and DEC_RESP for a function code other than 3 and 4. Safe. -/
  | unsupportedFunction
  /-- `ExpectedQuantityOutOfRange` (R171): raised by DEC_RESP for an expected quantity of 0 or above 125. Safe. -/
  | expectedQuantityOutOfRange
  /-- `FrameTooLong` (R26, R171): raised by the decoder, and by DEC_RESP, PARSE_REQ and the frame rows, for a frame
  longer than the buffer. Safe. -/
  | frameTooLong
  /-- `OperandTooWide` (R171): raised by the decoder for a used operand that does not fit its width. Safe. -/
  | operandTooWide
deriving DecidableEq, Repr

/-- The block, its frame input buffer, the model's two marks, and the host's side of the interface. -/
structure State where
  /-- The CRC accumulator (R20). -/
  crc : Half
  /-- `crc_valid` (R21). -/
  crcValid : Bool
  /-- The model's `fault` mark (R23, R25). -/
  faultMark : Bool
  /-- The model's `refused` mark (R23, R25). -/
  refusedMark : Bool
  /-- The frame input buffer, as the host has filled it since the last command (R22, R40, R41, R52). -/
  buf : Memory
  /-- The number of valid bytes in the buffer, 0 to 256 (R41). -/
  len : Nat
  /-- What the host does next, first item first (R24, R50): the commands not yet accepted. -/
  pending : List HostInput
  /-- The results returned so far, in command order: the observation of R200. -/
  results : List Result
deriving DecidableEq, Repr

/-- The block right after reset (R25, R190), at the start of a run (R200): `crc_valid = 0`, both marks 0, nothing returned.
`crc` holds the value assumption 2 names; the buffer is unfilled (assumption 3); the host has presented nothing. -/
def State.reset : State where
  crc := Config.crcResetValue
  crcValid := false
  faultMark := false
  refusedMark := false
  buf := []
  len := 0
  pending := []
  results := []

end Sys2Proof.Machine
end

