-- ==== Sys2Proof/Machine/Checksum.lean ====
section
/-!
DEFINITION. The CRC function of 40_crc.md section 1, and the CRC field of a frame (R63).
-/

namespace Sys2Proof.Machine

/-- One of the eight shifts of R100: a right shift, XORed with the polynomial when the bit shifted out is 1. -/
def crcShift (c : Half) : Half :=
  if c.getLsbD 0 then (c >>> 1) ^^^ Config.crcPoly else c >>> 1

/-- `n` shifts. -/
def crcShifts : Nat → Half → Half
  | 0, c => c
  | n + 1, c => crcShifts n (crcShift c)

/-- `CrcStep(c, b)` (R100). -/
def crcStep (c : Half) (b : Byte) : Half := crcShifts 8 (c ^^^ zext16 b)

/-- The bytes of `s` folded into `c`, first to last (the loop of R101). -/
def crcFold (c : Half) (s : List Byte) : Half := s.foldl crcStep c

/-- `CRC16(s)` (R101). -/
def crc16 (s : List Byte) : Half := crcFold Config.crcInitValue s ^^^ Config.crcXorOut

/-- The table of R107: `T[i] = CrcStep(0x0000, i)`. -/
def crcTable (i : Byte) : Half := crcStep 0x0000#16 i

/-- The byte step of a table-driven generator (R107). -/
def crcTableStep (c : Half) (b : Byte) : Half := (c >>> 8) ^^^ crcTable (lo (c ^^^ zext16 b))

/-- Byte `i` of a frame (R11). -/
def byteAt (f : List Byte) (i : Nat) : Byte := f.getD i 0#8

/-- The received CRC of a frame of length `L`: `be16(f[L-1], f[L-2])` (R45, R66). -/
def receivedCrc (f : List Byte) : Half := be16 (byteAt f (f.length - 1)) (byteAt f (f.length - 2))

/-- `CrcOk(f)` (R63), for a frame of at least two bytes. -/
def crcOk (f : List Byte) : Bool := crc16 (f.take (f.length - 2)) = receivedCrc f

/-- A frame body with its correct CRC field, low byte first (R60 to R63). -/
def withCrc (body : List Byte) : List Byte := body ++ littleEndian (crc16 body)

/-- `ReqFrame(sa, fc, ra, q)` (R60). -/
def reqFrame (sa fc : Byte) (ra q : Half) : List Byte := withCrc (reqBody sa fc ra q)

/-- `RespFrame(sa, fc, w)` (R61): what a slave that answers correctly sends. -/
def respFrame (sa fc : Byte) (ws : List Half) : List Byte := withCrc (respBody sa fc ws)

/-- `ExcFrame(sa, fc, e)` (R62): its function byte is `fc OR 0x80`. -/
def excFrame (sa fc e : Byte) : List Byte := withCrc (excBodyRaw sa (fc ||| Config.excFlag) e)

end Sys2Proof.Machine
end

