-- ==== Sys2Proof/Machine/Ops.lean ====
section
/-!
DEFINITION. The named operations on the state: the frame input buffer, the CRC register, returning a result, error
delivery, reset, and the model's marks.
-/

namespace Sys2Proof.Machine

/-! ## The frame input buffer (R40, R41) -/

/-- Byte `a` of the buffer; an index the host has not filled reads as `Config.unfilledByte`. -/
def Memory.read : Memory → Nat → Byte
  | [], _ => Config.unfilledByte
  | (k, v) :: m, a => if k = a then v else Memory.read m a

/-- Canonical from index `lo` on: indices strictly rising, each below the capacity, no entry equal to the unfilled byte. -/
def Memory.wfFrom (lo : Nat) : Memory → Bool
  | [] => true
  | (k, v) :: m =>
    (lo ≤ k && k < Config.frameBufBytes && v != Config.unfilledByte) && Memory.wfFrom (k + 1) m

/-- The canonical form of the buffer. -/
def Memory.wf (m : Memory) : Bool := Memory.wfFrom 0 m

/-- The entries for the given bytes from index `k` on. -/
def Memory.ofBytesFrom : Nat → List Byte → Memory
  | _, [] => []
  | k, b :: bs =>
    if b = Config.unfilledByte then Memory.ofBytesFrom (k + 1) bs else (k, b) :: Memory.ofBytesFrom (k + 1) bs

/-- The entries from index `n` on. -/
def Memory.keepFrom (n : Nat) : Memory → Memory
  | [] => []
  | (k, v) :: m => if n ≤ k then (k, v) :: Memory.keepFrom n m else Memory.keepFrom n m

/-- The buffer after the host stores the given bytes from index 0 on; every other index stays as it was. -/
def Memory.store (m : Memory) (bytes : List Byte) : Memory :=
  Memory.ofBytesFrom 0 bytes ++ Memory.keepFrom bytes.length m

/-- `BufRead(i)` (R12, R41): used only for `i < len`. Reading has no side effect (R47). -/
def State.bufRead (s : State) (i : Nat) : Byte := Memory.read s.buf i

/-- The frame in the buffer, `buf[0..len)` in wire order: the bytes `BufRead(0)` to `BufRead(len-1)`. -/
def State.frame (s : State) : List Byte := (List.range s.len).map s.bufRead

/-- The host fills the buffer with a frame (R40, R52): its bytes stand from index 0 on and its length is `len`;
indices above it stay as they were and are never read (R41). It is there for the next command only (`releaseFrame`). -/
def State.fill (s : State) (bytes : List Byte) : State :=
  { s with buf := s.buf.store bytes, len := bytes.length }

/-- No frame survives a command (R22), and a frame is read only by the command it is presented with (R52): when a command
completes, whether it reads the buffer or not, the buffer is unfilled. Assumption 5. -/
def State.releaseFrame (s : State) : State := { s with buf := [], len := 0 }

/-- The buffer as the command finds it: filled with the frame presented as its operand, or as the host has filled it since
the last command (R26, R40). -/
def State.present (s : State) : BufOperand → State
  | .presented bytes => s.fill bytes
  | .held => s

/-! ## The CRC register and its flag (R20, R21) -/

/-- `crc <- v` (R12). -/
def State.setCrc (s : State) (v : Half) : State := { s with crc := v }

/-- `crc_valid <- v` (R12). -/
def State.setCrcValid (s : State) (v : Bool) : State := { s with crcValid := v }

/-! ## Results and errors -/

/-- A command returns its one result (R28): it joins the results in command order (R50, R200). -/
def State.emit (s : State) (r : Result) : State := { s with results := s.results ++ [r] }

/-- Error delivery, the block's "trap entry" (R168): the error is returned in place of the success result; no state is
saved, no register changes, and control goes nowhere. There is no return from an error: the block accepts the next command
in the state it had before the failed one (R169). -/
def State.deliverError (s : State) (r : Result) : State := s.emit r

/-- A command ends with its result, success or error (R28, R168), and the frame presented with it is gone (R22, R52). -/
def State.complete (s : State) (r : Result) : State :=
  match r with
  | .ok p => s.releaseFrame.emit (.ok p)
  | .encodingError e => s.releaseFrame.deliverError (.encodingError e)
  | .frameError e => s.releaseFrame.deliverError (.frameError e)
  | .deviceExceptionError c => s.releaseFrame.deliverError (.deviceExceptionError c)

/-! ## Reset and the marks -/

/-- Reset between commands (R190): `crc_valid <- 0`, and `crc` is left with no value (assumption 2 names what stands there).
Nothing else changes: not the marks (R23), not the host's side of the interface. -/
def State.applyReset (s : State) : State := { s with crc := Config.crcResetValue, crcValid := false }

/-- A fault sets the `fault` mark (R23, R170). -/
def State.markFault (s : State) : State := { s with faultMark := true }

/-- A refusal sets the `refused` mark (R23, R171). -/
def State.markRefused (s : State) : State := { s with refusedMark := true }

/-- A mark stands: the run has ended (R200). -/
def State.marked (s : State) : Bool := s.faultMark || s.refusedMark

/-- The host's queue after its first item is accepted (R50). -/
def State.withPending (s : State) (rest : List HostInput) : State := { s with pending := rest }

/-! ## The host hands the block a frame, or something the decoder rejects -/

/-- The host hands the block a complete frame with its length (R41, R69): it fills the buffer. Handing over a frame is no
command, so it returns no result. A frame longer than the buffer cannot be presented (R171). -/
def State.handFrame (s : State) (bytes : List Byte) : Host.Outcome State Fault Refusal :=
  if Config.frameBufBytes < bytes.length then .refused .frameTooLong else .next (s.fill bytes)

/-- What comes of something the decoder rejects. A command is refused by name (R171). Bytes that no frame row names fill
the buffer like any frame: the block gives them no meaning before a command reads them (R41). -/
def rejectInput (e : DecodeError) (s : State) : Host.Outcome State Fault Refusal :=
  match e with
  | .operandTooWide => .refused .operandTooWide
  | .frameTooLong => .refused .frameTooLong
  | .unrecognisedFrame bytes => s.handFrame bytes

end Sys2Proof.Machine
end

