-- ==== Sys2Proof/Machine/Operands.lean ====
section
/-!
DEFINITION. Operand forms and operand checks of the frame commands, and the fields of a frame (R66).
-/

namespace Sys2Proof.Machine

/-- The two function codes of the block (R3, R65, R68). -/
def supportedFunction (fc : Byte) : Bool := fc = Config.fcReadHolding || fc = Config.fcReadInput

/-- A quantity from `MIN_QTY` to `MAX_QTY` (R8, R67). -/
def quantityInRange (q : Half) : Bool := Config.minQty ≤ q.toNat && q.toNat ≤ Config.maxQty

/-- The frame operand of DEC_RESP and PARSE_REQ, given to a computation on the state that presents it; a frame longer than
the buffer cannot be presented (R26, R171). -/
def withFrameOperand (buf : BufOperand) (s : State) (k : State → Host.Outcome State Fault Refusal) :
    Host.Outcome State Fault Refusal :=
  if Config.frameBufBytes < (s.present buf).len then .refused .frameTooLong else k (s.present buf)

/-! ## Fields of a frame (R66) -/

abbrev frameSlave (f : List Byte) : Byte := byteAt f 0
abbrev frameFunction (f : List Byte) : Byte := byteAt f 1
abbrev frameRegAddr (f : List Byte) : Half := be16 (byteAt f 2) (byteAt f 3)
abbrev frameQuantity (f : List Byte) : Half := be16 (byteAt f 4) (byteAt f 5)
abbrev frameByteCount (f : List Byte) : Byte := byteAt f 2
abbrev frameExceptionCode (f : List Byte) : Byte := byteAt f 2

/-- Word `i` of a normal response (R66, R137). -/
def frameWord (f : List Byte) (i : Nat) : Half := be16 (byteAt f (3 + 2 * i)) (byteAt f (4 + 2 * i))

end Sys2Proof.Machine
end

