-- ==== Sys2Proof/Machine/Flags.lean ====
section
/-!
DEFINITION. The block's one flag, `crc_valid` (R21): who reads it and what a clear flag does. CRC_INIT sets it, reset clears
it, and no other command writes it.
-/

namespace Sys2Proof.Machine

/-- CRC_UPDATE and CRC_READ check `crc_valid`; where it is 0 they fault with `CrcNotInitialised` and have no effect, the first
line of the pseudocode of R103 and R104 (R21, R170, R191, decision D6). -/
def withValidCrc (s : State) (k : Half → Host.Outcome State Fault Refusal) : Host.Outcome State Fault Refusal :=
  if s.crcValid then k s.crc else .fault .crcNotInitialised

end Sys2Proof.Machine
end

