-- ==== Sys2Proof/Machine/Crc.lean ====
section
/-!
DEFINITION. The CRC commands (40_crc.md section 2).
-/

namespace Sys2Proof.Machine

/-- CRC_INIT (R102). -/
def execCrcInit (s : State) : Host.Outcome State Fault Refusal :=
  .next (((s.setCrc Config.crcInitValue).setCrcValid true).complete (.ok .none))

/-- CRC_UPDATE (R103). -/
def execCrcUpdate (b : Byte) (s : State) : Host.Outcome State Fault Refusal :=
  withValidCrc s fun c => .next ((s.setCrc (crcStep c b)).complete (.ok .none))

/-- CRC_READ (R104): `crc_out = crc XOR CRC_XOROUT`. -/
def execCrcRead (s : State) : Host.Outcome State Fault Refusal :=
  withValidCrc s fun c => .next (s.complete (.ok (.crc (c ^^^ Config.crcXorOut))))

end Sys2Proof.Machine
end

