-- ==== Sys2Proof/Machine/FrameEncode.lean ====
section
/-!
DEFINITION. The request-frame encoder (41_frame_encode.md). It computes its CRC on a private datapath and neither reads nor
writes `crc` (R20, D15).
-/

namespace Sys2Proof.Machine

/-- The result of ENC_REQ for a supported function code (R120). -/
def encReqResult (sa fc : Byte) (ra qty : Half) : Result :=
  if quantityInRange qty then .ok (.request (reqFrame sa fc ra qty)) else .encodingError .quantityOutOfRange

/-- ENC_REQ (R120). -/
def execEncReq (sa fc : Byte) (ra qty : Half) (s : State) : Host.Outcome State Fault Refusal :=
  if supportedFunction fc then .next (s.complete (encReqResult sa fc ra qty)) else .refused .unsupportedFunction

end Sys2Proof.Machine
end

