-- ==== Sys2Proof/Machine/FrameHand.lean ====
section
/-!
DEFINITION. The frame kinds (R60 to R62, R133): the host hands the block a complete frame of the kind, which then stands in
the frame input buffer with its length (R40, R41, R69), its fields at the offsets of the kind's layout and its CRC field as
the frame carries it, right or wrong. It is presented with the next command and no later one (R22, R52). What a command makes of the frame is the command's (R130, R150). Assumption 4.
-/

namespace Sys2Proof.Machine

/-- FRAME_READ_REQUEST_FC3 (R60). -/
def execFrameReadRequestFc3 (sa : Byte) (ra qty crc : Half) (s : State) : Host.Outcome State Fault Refusal :=
  s.handFrame (frameBytes (.frameReadRequestFc3 sa ra qty crc))

/-- FRAME_READ_REQUEST_FC4 (R60). -/
def execFrameReadRequestFc4 (sa : Byte) (ra qty crc : Half) (s : State) : Host.Outcome State Fault Refusal :=
  s.handFrame (frameBytes (.frameReadRequestFc4 sa ra qty crc))

/-- FRAME_READ_RESPONSE_FC3 (R61). -/
def execFrameReadResponseFc3 (sa : Byte) (ws : List Half) (crc : Half) (s : State) :
    Host.Outcome State Fault Refusal :=
  s.handFrame (frameBytes (.frameReadResponseFc3 sa ws crc))

/-- FRAME_READ_RESPONSE_FC4 (R61). -/
def execFrameReadResponseFc4 (sa : Byte) (ws : List Half) (crc : Half) (s : State) :
    Host.Outcome State Fault Refusal :=
  s.handFrame (frameBytes (.frameReadResponseFc4 sa ws crc))

/-- FRAME_EXCEPTION_FC3 (R62). -/
def execFrameExceptionFc3 (sa code : Byte) (crc : Half) (s : State) : Host.Outcome State Fault Refusal :=
  s.handFrame (frameBytes (.frameExceptionFc3 sa code crc))

/-- FRAME_EXCEPTION_FC4 (R62). -/
def execFrameExceptionFc4 (sa code : Byte) (crc : Half) (s : State) : Host.Outcome State Fault Refusal :=
  s.handFrame (frameBytes (.frameExceptionFc4 sa code crc))

/-- FRAME_EXCEPTION_ANY_BIT7 (R133). -/
def execFrameExceptionAnyBit7 (sa fc code : Byte) (crc : Half) (s : State) : Host.Outcome State Fault Refusal :=
  s.handFrame (frameBytes (.frameExceptionAnyBit7 sa fc code crc))

end Sys2Proof.Machine
end

