-- ==== Sys2Proof/Machine/FrameParse.lean ====
section
/-!
DEFINITION. The frame parser (42_frame_parse.md): DEC_RESP and PARSE_REQ. Both compute the CRC on a private datapath and
neither read nor write `crc` (R20, D15).
-/

namespace Sys2Proof.Machine

/-- Which function bytes with bit 7 set are an exception response to `fc` (R133). -/
def recognisedException (m : ExcMatch) (fc f : Byte) : Bool :=
  match m with
  | .strict => f = fc ||| Config.excFlag
  | .bit7 => true

/-- The exception part of step 4 of DEC_RESP (R133): the function byte has bit 7 set. -/
def exceptionResult (m : ExcMatch) (f : List Byte) (fc : Byte) : Result :=
  if !recognisedException m fc (frameFunction f) then .frameError .functionMismatch
  else if f.length ≠ Config.excLen then .frameError .wrongLength
  else .deviceExceptionError (frameExceptionCode f)

/-- Steps 5 to 7 of DEC_RESP (R135 to R137). -/
def responseDataResult (f : List Byte) (qty : Half) : Result :=
  if (frameByteCount f).toNat ≠ 2 * qty.toNat then .frameError .byteCountMismatch
  else if f.length ≠ 5 + 2 * qty.toNat then .frameError .wrongLength
  else .ok (.words ((List.range qty.toNat).map (frameWord f)))

/-- The result of DEC_RESP for operands it does not refuse (R130): the first step that fails gives it (R138). -/
def decRespResult (m : ExcMatch) (f : List Byte) (sa fc : Byte) (qty : Half) : Result :=
  if f.length < Config.minRespLen then .frameError .wrongLength
  else if !crcOk f then .frameError .crcMismatch
  else if frameSlave f ≠ sa then .frameError .addressMismatch
  else if (frameFunction f).msb then exceptionResult m f fc
  else if frameFunction f ≠ fc then .frameError .functionMismatch
  else responseDataResult f qty

/-- DEC_RESP (R130): the refusals come first (R138, R167). -/
def execDecResp (buf : BufOperand) (sa fc : Byte) (qty : Half) (s : State) : Host.Outcome State Fault Refusal :=
  withFrameOperand buf s fun t =>
    if !supportedFunction fc then .refused .unsupportedFunction
    else if !quantityInRange qty then .refused .expectedQuantityOutOfRange
    else .next (t.complete (decRespResult Config.excMatch t.frame sa fc qty))

/-- The result of PARSE_REQ (R150): first failing step wins. -/
def parseReqResult (f : List Byte) : Result :=
  if f.length ≠ Config.reqLen then .frameError .wrongLength
  else if !crcOk f then .frameError .crcMismatch
  else if !supportedFunction (frameFunction f) then .frameError .functionMismatch
  else if !quantityInRange (frameQuantity f) then .frameError .quantityOutOfRange
  else .ok (.fields (frameSlave f) (frameFunction f) (frameRegAddr f) (frameQuantity f))

/-- PARSE_REQ (R150). -/
def execParseReq (buf : BufOperand) (s : State) : Host.Outcome State Fault Refusal :=
  withFrameOperand buf s fun t => .next (t.complete (parseReqResult t.frame))

end Sys2Proof.Machine
end

