-- ==== Sys2Proof/Machine/Reserved.lean ====
section
/-!
DEFINITION. The reserved command values (R71).
-/

namespace Sys2Proof.Machine

/-- RESERVED (R71, R171): refused with `ReservedCommand`, whichever value it is; never a hint or a no-op. -/
def execReserved (_cmd : Byte) (_s : State) : Host.Outcome State Fault Refusal := .refused .reservedCommand

end Sys2Proof.Machine
end

