-- ==== Sys2Proof/Machine/Dispatch.lean ====
section
/-!
DEFINITION. One arm per row of spec/opcode_table.json.
-/

namespace Sys2Proof.Machine

def exec (i : Instr) (s : State) : Host.Outcome State Fault Refusal :=
  match i with
  | .crcInit => Sys2Proof.Machine.execCrcInit s
  | .crcUpdate b => Sys2Proof.Machine.execCrcUpdate b s
  | .crcRead => Sys2Proof.Machine.execCrcRead s
  | .encReq sa fc ra qty => Sys2Proof.Machine.execEncReq sa fc ra qty s
  | .decResp buf sa fc qty => Sys2Proof.Machine.execDecResp buf sa fc qty s
  | .parseReq buf => Sys2Proof.Machine.execParseReq buf s
  | .reserved cmd => Sys2Proof.Machine.execReserved cmd s
  | .frameReadRequestFc3 sa ra qty crc => Sys2Proof.Machine.execFrameReadRequestFc3 sa ra qty crc s
  | .frameReadRequestFc4 sa ra qty crc => Sys2Proof.Machine.execFrameReadRequestFc4 sa ra qty crc s
  | .frameReadResponseFc3 sa ws crc => Sys2Proof.Machine.execFrameReadResponseFc3 sa ws crc s
  | .frameReadResponseFc4 sa ws crc => Sys2Proof.Machine.execFrameReadResponseFc4 sa ws crc s
  | .frameExceptionFc3 sa code crc => Sys2Proof.Machine.execFrameExceptionFc3 sa code crc s
  | .frameExceptionFc4 sa code crc => Sys2Proof.Machine.execFrameExceptionFc4 sa code crc s
  | .frameExceptionAnyBit7 sa fc code crc => Sys2Proof.Machine.execFrameExceptionAnyBit7 sa fc code crc s

end Sys2Proof.Machine
end

