-- ==== Sys2Proof/Machine/Step.lean ====
section
/-!
DEFINITION. One step: the block accepts what the host does next (R24, R50). There is no program counter and nothing is
fetched; the host's next item is the first of `pending`.
-/

namespace Sys2Proof.Machine

/-- The block accepts an encoded instruction. -/
def accept (e : Encoded) (s : State) : Host.Outcome State Fault Refusal :=
  match decode e with
  | .ok i => exec i s
  | .error err => rejectInput err s

/-- One step. A run with a fault or refusal mark has no further commands (R23, R200). With nothing presented the block
waits (R190). Reset applies between commands (R190). -/
def step (s : State) : Host.Outcome State Fault Refusal :=
  if s.marked then .fault .runEnded
  else
    match s.pending with
    | [] => .next s
    | .reset :: rest => .next (s.withPending rest).applyReset
    | .present e :: rest => accept e (s.withPending rest)

/-- The host presents the instruction of a table word next, before anything else it was going to do. -/
def State.withFetchWord (s : State) (nbits w : Nat) : State :=
  s.withPending (.present (tableWord nbits w) :: s.pending)

end Sys2Proof.Machine
end

