-- ==== Sys2Proof/Machine/Asm.lean ====
section
/-!
DEFINITION. The assembler syntax of host programs (R72): the line of a command whose operands are given with it.
-/

namespace Sys2Proof.Machine

/-- A hexadecimal digit. -/
def hexDigit (n : Nat) : Char := "0123456789ABCDEF".toList.getD n '0'

/-- A byte as two hexadecimal digits. -/
def hexByte (b : Byte) : String := String.ofList [hexDigit (b.toNat / 16), hexDigit (b.toNat % 16)]

/-- An 8-bit operand: hexadecimal with `0x`. -/
def asmByte (b : Byte) : String := "0x" ++ hexByte b

/-- A 16-bit operand: hexadecimal with `0x`. -/
def asmHalf (w : Half) : String := "0x" ++ hexByte (hi w) ++ hexByte (lo w)

/-- A bracketed list: the frame buffer in wire order; its length is `len`. -/
def asmFrame (bs : List Byte) : String := "[" ++ String.intercalate " " (bs.map hexByte) ++ "]"

/-- One command per line, mnemonic then operands (R72). A command whose frame the host has filled beforehand, a reserved
command word and a frame kind have no line. -/
def asmLine : Instr → Option String
  | .crcInit => some "CRC_INIT"
  | .crcUpdate b => some ("CRC_UPDATE " ++ asmByte b)
  | .crcRead => some "CRC_READ"
  | .encReq sa fc ra qty =>
    some ("ENC_REQ    sa=" ++ asmByte sa ++ ", fc=" ++ asmByte fc ++ ", ra=" ++ asmHalf ra ++ ", qty=" ++ asmHalf qty)
  | .decResp (.presented bs) sa fc qty =>
    some ("DEC_RESP   " ++ asmFrame bs ++ ", sa=" ++ asmByte sa ++ ", fc=" ++ asmByte fc ++ ", qty=" ++ asmHalf qty)
  | .decResp .held _ _ _ => none
  | .parseReq (.presented bs) => some ("PARSE_REQ  " ++ asmFrame bs)
  | .parseReq .held => none
  | .reserved _ => none
  | .frameReadRequestFc3 _ _ _ _ => none
  | .frameReadRequestFc4 _ _ _ _ => none
  | .frameReadResponseFc3 _ _ _ => none
  | .frameReadResponseFc4 _ _ _ => none
  | .frameExceptionFc3 _ _ _ => none
  | .frameExceptionFc4 _ _ _ => none
  | .frameExceptionAnyBit7 _ _ _ _ => none

end Sys2Proof.Machine
end

