-- ==== Sys2Proof/Machine/Results.lean ====
section
/-!
DEFINITION. The result interface as the host reads it (R28, R160 to R163): the numeric status and reason codes, the outputs
each kind names (an output a kind does not name is absent, D22), and the retriability the block only reports (R166).
-/

namespace Sys2Proof.Machine

/-- `reason[2:0]` of an `EncodingError` (R161). -/
def EncodingReason.code : EncodingReason → BitVec 3
  | .quantityOutOfRange => 6#3

/-- `reason[2:0]` of a `FrameError` (R162). -/
def FrameReason.code : FrameReason → BitVec 3
  | .wrongLength => 1#3
  | .crcMismatch => 2#3
  | .addressMismatch => 3#3
  | .functionMismatch => 4#3
  | .byteCountMismatch => 5#3
  | .quantityOutOfRange => 6#3

/-- `status[1:0]` (R28, R160). -/
def Result.status : Result → BitVec 2
  | .ok _ => 0#2
  | .encodingError _ => 1#2
  | .frameError _ => 2#2
  | .deviceExceptionError _ => 3#2

/-- The `reason` output (R28). -/
def Result.reason : Result → Option (BitVec 3)
  | .ok _ => none
  | .encodingError r => some r.code
  | .frameError r => some r.code
  | .deviceExceptionError _ => none

/-- The `exc_code` output (R28, R163). -/
def Result.excCode : Result → Option Byte
  | .ok _ => none
  | .encodingError _ => none
  | .frameError _ => none
  | .deviceExceptionError c => some c

/-- The payload of an `Ok` result. -/
def Result.payload : Result → Option Payload
  | .ok p => some p
  | .encodingError _ => none
  | .frameError _ => none
  | .deviceExceptionError _ => none

/-- The `crc_out` output of CRC_READ (R28). -/
def Payload.crcOut : Payload → Option Half
  | .crc c => some c
  | .none | .request _ | .words _ | .fields _ _ _ _ => Option.none

/-- The `out` output of ENC_REQ (R28). -/
def Payload.out : Payload → Option (List Byte)
  | .request bs => some bs
  | .none | .crc _ | .words _ | .fields _ _ _ _ => Option.none

/-- The `out_len` output of ENC_REQ (R28). -/
def Payload.outLen (p : Payload) : Option Nat := p.out.map (·.length)

/-- The `words` output of DEC_RESP (R28). -/
def Payload.wordsOut : Payload → Option (List Half)
  | .words ws => some ws
  | .none | .crc _ | .request _ | .fields _ _ _ _ => Option.none

/-- The `nwords` output of DEC_RESP (R28). -/
def Payload.nwords (p : Payload) : Option Nat := p.wordsOut.map (·.length)

/-- What the source says a host may do about an error (R166). The block takes no action on it. -/
inductive Retriability where
  /-- Never retried. -/
  | never
  /-- Transient, retried. -/
  | retried
  /-- Not retried by default; a code may be added to the retriable set by the host's policy. -/
  | hostsChoice
deriving DecidableEq, Repr

/-- The retriability of a result's error kind (R161, R162, R166); a success has none. -/
def Result.retriability : Result → Option Retriability
  | .ok _ => none
  | .encodingError _ => some .never
  | .frameError _ => some .retried
  | .deviceExceptionError _ => some .hostsChoice

end Sys2Proof.Machine
end

