-- ==== Sys2Proof/Machine/Run.lean ====
section
/-!
DEFINITION. Sequences of commands and runs: the pseudo-command CRC_BLOCK (R73), and a run with its fault and refusal marks
(R23, R170, R171, R200).
-/

namespace Sys2Proof.Machine

/-- The expansion of `CRC_BLOCK [b0 ... bn-1]` (R73). -/
def crcBlock (bs : List Byte) : List Instr := .crcInit :: (bs.map .crcUpdate ++ [.crcRead])

/-- Instructions one after another, stopping at the first fault or refusal (R50, R200). -/
def execSeq : List Instr → State → Host.Outcome State Fault Refusal
  | [], s => .next s
  | i :: is, s =>
    match exec i s with
    | .next t => execSeq is t
    | .fault f => .fault f
    | .refused r => .refused r

/-- The state with its mark after an attempted step: a fault sets the `fault` mark, a refusal the `refused` mark, no result
is returned, and a marked run stays as it is for good (R23, R29, R170, R171, R200). -/
def advance (s : State) : State :=
  if s.marked then s
  else
    match step s with
    | .next t => t
    | .fault _ => s.markFault
    | .refused _ => s.markRefused

/-- `n` attempted steps. -/
def advances : Nat → State → State
  | 0, s => s
  | n + 1, s => advances n (advance s)

/-- A run of R200: a reset followed by a finite sequence of what the host presents. -/
def runFrom (inputs : List Encoded) : State := State.reset.withPending (inputs.map .present)

/-- The end of a run: every item has been taken, or the run has stopped. -/
def runEnd (inputs : List Encoded) : State := advances inputs.length (runFrom inputs)

end Sys2Proof.Machine
end

