-- ==== Sys2Proof/Safety.lean ====
section
/-!
DEFINITION. What claims are stated in: a successful run and its observation (R200), the invariants of the state, and the
host's premises that the block does not check (R67, R199).
-/

namespace Sys2Proof

open Machine

/-- A run is successful when no command faulted and none was refused, and it has ended when the last command has returned
(R200). -/
def Successful (s : State) : Prop := s.faultMark = false ∧ s.refusedMark = false ∧ s.pending = []

/-- What R200 lets a host observe of a run: the results in command order and the final `crc`, `crc_valid`. -/
structure Observation where
  results : List Result
  crc : Half
  crcValid : Bool
deriving DecidableEq, Repr

/-- The observation of a state. -/
def observation (s : State) : Observation := ⟨s.results, s.crc, s.crcValid⟩

/-- The frame input buffer keeps its canonical form and `len` stays within the capacity (R41). -/
def BufferOk (s : State) : Prop := Memory.wf s.buf = true ∧ s.len ≤ Config.frameBufBytes

/-- A result the block may return (R28, R64, R67): ENC_REQ's frame has 8 bytes and a correct CRC field, DEC_RESP's words
number 1 to 125, PARSE_REQ's fields hold a supported function code and a quantity in range. -/
def LegalResult : Result → Prop
  | .ok .none => True
  | .ok (.crc _) => True
  | .ok (.request out) => out.length = Config.reqLen ∧ crcOk out = true
  | .ok (.words ws) => Config.minQty ≤ ws.length ∧ ws.length ≤ Config.maxQty
  | .ok (.fields _ fc _ q) => supportedFunction fc = true ∧ quantityInRange q = true
  | .encodingError _ => True
  | .frameError _ => True
  | .deviceExceptionError _ => True

/-- Every result returned so far is legal. -/
def ResultsLegal (s : State) : Prop := ∀ r ∈ s.results, LegalResult r

/-- The invariant of the block and its interface. -/
def StateInv (s : State) : Prop := BufferOk s ∧ ResultsLegal s

/-- The slave addresses the host uses; the block does not enforce the range (R67, R199). -/
def hostSlaveAddress (sa : Byte) : Prop := 1 ≤ sa.toNat ∧ sa.toNat ≤ 247

end Sys2Proof
end

