-- ==== Sys2Proof/Certificates/Slice0/Obligations.lean ====
section
/-!
DEFINITION. The statements for the provers. Each docstring names the rule it formalises; a statement that rests on a choice
of the model names its assumption.
-/

open Sys2Proof Sys2Proof.Machine

/-! ## Words the statements use -/

/-- `exec i` at `s` answers the next state `t` with the result `r` returned, and nothing else of `t` changed but the frame
input buffer, whose contents after a command are `NoFrameSurvivesACommand`'s. -/
def Sys2Proof.Claims.Returns (i : Instr) (s t : State) (r : Result) : Prop :=
  ∃ u : State, exec i s = .next u ∧ u = { t with buf := u.buf, len := u.len, results := t.results ++ [r] }

/-- The command word `cmd` with the operands of `i` decodes to `i`, and `i` encodes to it. -/
def Sys2Proof.Claims.CommandWord (cmd : Nat) (i : Instr) : Prop :=
  ∃ c : CommandInput, encode i = .command c ∧ c.cmd = cmd ∧ decode (.command c) = .ok i

/-- A function code of the block as an operand (R65, R68). -/
def Sys2Proof.Claims.BlockCode (fc : Byte) : Prop := fc = 0x03#8 ∨ fc = 0x04#8

/-- A quantity from 1 to 125 (R67). -/
def Sys2Proof.Claims.InRange (q : Half) : Prop := 1 ≤ q.toNat ∧ q.toNat ≤ 125

/-- The frame `f` with bit `j` of byte `i` flipped. -/
def Sys2Proof.Claims.flipBit (f : List Byte) (i j : Nat) : List Byte :=
  f.set i (f.getD i 0#8 ^^^ (1#8 <<< j))

/-- A command, not a frame handed over. -/
def Sys2Proof.Claims.isCommand : Instr → Bool
  | .crcInit | .crcUpdate _ | .crcRead | .encReq _ _ _ _ | .decResp _ _ _ _ | .parseReq _ | .reserved _ => true
  | .frameReadRequestFc3 _ _ _ _ | .frameReadRequestFc4 _ _ _ _ | .frameReadResponseFc3 _ _ _
  | .frameReadResponseFc4 _ _ _ | .frameExceptionFc3 _ _ _ | .frameExceptionFc4 _ _ _
  | .frameExceptionAnyBit7 _ _ _ _ => false

/-- A command that reads the frame the host has filled the buffer with before it. -/
def Sys2Proof.Claims.readsHeldFrame (i : Instr) : Bool :=
  match i with
  | .decResp .held _ _ _ | .parseReq .held => true
  | .decResp (.presented _) _ _ _ | .parseReq (.presented _) | .crcInit | .crcUpdate _ | .crcRead
  | .encReq _ _ _ _ | .reserved _ | .frameReadRequestFc3 _ _ _ _ | .frameReadRequestFc4 _ _ _ _
  | .frameReadResponseFc3 _ _ _ | .frameReadResponseFc4 _ _ _ | .frameExceptionFc3 _ _ _
  | .frameExceptionFc4 _ _ _ | .frameExceptionAnyBit7 _ _ _ _ => false

open Sys2Proof.Claims

/-! ## The CRC function (40_crc.md sections 1 and 3) -/

/-- R100: the byte step XORs the byte in, then shifts right eight times, XORing 0xA001 when a 1 is shifted out; with the
rule's worked example bit by bit. -/
def Obligations.CrcByteStepIsEightReflectedShifts : Prop :=
  let shift : Half → Half := fun v => if v.getLsbD 0 then (v >>> 1) ^^^ 0xA001#16 else v >>> 1
  (∀ (c : Half) (b : Byte), crcStep c b = Nat.iterate shift 8 (c ^^^ b.setWidth 16)) ∧
    (List.range 8).map (fun n => Nat.iterate shift (n + 1) (0xFFFF#16 ^^^ 0x0001#16)) =
      [0x7FFF#16, 0x9FFE#16, 0x4FFF#16, 0x87FE#16, 0x43FF#16, 0x81FE#16, 0x40FF#16, 0x807E#16] ∧
    crcStep 0xFFFF#16 0x01#8 = 0x807E#16

/-- R101 and R110: the CRC of a sequence folds its bytes, first to last, into 0xFFFF, with no final inversion; with R101's
corner cases and worked example, and R110's check value, which is not CRC-16/CCITT-FALSE's. -/
def Obligations.Crc16FoldsFromInitialValue : Prop :=
  (∀ s : List Byte, crc16 s = s.foldl crcStep 0xFFFF#16 ^^^ 0x0000#16) ∧
    crc16 [] = 0xFFFF#16 ∧ crc16 [0x00#8] = 0x40BF#16 ∧ crc16 [0xFF#8] = 0x00FF#16 ∧
    crc16 [0xFF#8, 0xFF#8] = 0x0000#16 ∧
    crc16 [0x01#8, 0x03#8, 0x00#8, 0x00#8, 0x00#8, 0x01#8] = 0x0A84#16 ∧
    littleEndian (crc16 [0x01#8, 0x03#8, 0x00#8, 0x00#8, 0x00#8, 0x01#8]) = [0x84#8, 0x0A#8] ∧
    (let check : List Byte := [0x31#8, 0x32#8, 0x33#8, 0x34#8, 0x35#8, 0x36#8, 0x37#8, 0x38#8, 0x39#8]
    crc16 check = 0x4B37#16 ∧ crc16 check ≠ 0x29B1#16)

/-- R106: a frame whose CRC field is correct has CRC 0x0000 over all its bytes, and `CrcOk` is equivalent to that for every
frame of at least two bytes; not so with the CRC appended high byte first. -/
def Obligations.ResidueOfACorrectFrameIsZero : Prop :=
  (∀ s : List Byte, crc16 (s ++ [(crc16 s).extractLsb' 0 8, (crc16 s).extractLsb' 8 8]) = 0x0000#16) ∧
    (∀ f : List Byte, 2 ≤ f.length → (crcOk f = true ↔ crc16 f = 0x0000#16)) ∧
    crc16 [0x01#8, 0x03#8, 0x00#8, 0x00#8, 0x00#8, 0x01#8, 0x0A#8, 0x84#8] = 0xC4E5#16

/-- R107: the table law for every register value and byte, the rule's table entries, and so a table-driven generator gives
the same CRC on every byte sequence. -/
def Obligations.TableDrivenGeneratorIsEquivalent : Prop :=
  (∀ (c : Half) (b : Byte),
      crcStep c b = (c >>> 8) ^^^ crcStep 0x0000#16 ((c ^^^ b.setWidth 16).extractLsb' 0 8)) ∧
    (∀ (c : Half) (s : List Byte), s.foldl crcTableStep c = s.foldl crcStep c) ∧
    [0x00#8, 0x01#8, 0x02#8, 0x03#8, 0x40#8, 0x80#8, 0xC0#8, 0xFF#8].map crcTable =
      [0x0000#16, 0xC0C1#16, 0xC181#16, 0x0140#16, 0xF001#16, 0xA001#16, 0x5000#16, 0x4040#16]

/-- R108: the byte step is linear over XOR, and so the effect of flipping a set of bits in a message on its CRC does not
depend on the message. -/
def Obligations.CrcIsLinearOverXor : Prop :=
  (∀ (c1 c2 : Half) (b1 b2 : Byte), crcStep (c1 ^^^ c2) (b1 ^^^ b2) = crcStep c1 b1 ^^^ crcStep c2 b2) ∧
    (∀ s s' d : List Byte, s.length = d.length → s'.length = d.length →
      crc16 (List.zipWith (fun x y => x ^^^ y) s d) ^^^ crc16 s =
        crc16 (List.zipWith (fun x y => x ^^^ y) s' d) ^^^ crc16 s')

/-- R109: flipping any single bit of a frame with a correct CRC field, the field's own bits too, makes `CrcOk` false. -/
def Obligations.EverySingleBitFlipIsDetected : Prop :=
  ∀ (f : List Byte) (i j : Nat), 2 ≤ f.length → crcOk f = true → i < f.length → j < 8 →
    crcOk (flipBit f i j) = false

/-- R111: folding the register's own low byte moves the high byte down; so one zero byte appended to a correct frame passes
the CRC comparison, and the length checks of DEC_RESP and PARSE_REQ are what catches it. -/
def Obligations.AppendedZeroPassesCrcButNotLength : Prop :=
  (∀ c : Half, crcStep c (c.extractLsb' 0 8) = (c.extractLsb' 8 8).setWidth 16) ∧
    (∀ f : List Byte, 2 ≤ f.length → crcOk f = true → crcOk (f ++ [0x00#8]) = true) ∧
    (∀ (m : ExcMatch) (f : List Byte) (sa fc : Byte) (qty : Half) (ws : List Half),
      decRespResult m f sa fc qty = .ok (.words ws) →
        decRespResult m (f ++ [0x00#8]) sa fc qty = .frameError .wrongLength) ∧
    (∀ (m : ExcMatch) (f : List Byte) (sa fc : Byte) (qty : Half) (code : Byte),
      decRespResult m f sa fc qty = .deviceExceptionError code →
        decRespResult m (f ++ [0x00#8]) sa fc qty = .frameError .wrongLength) ∧
    (∀ (f : List Byte) (p : Payload), parseReqResult f = .ok p →
        parseReqResult (f ++ [0x00#8]) = .frameError .wrongLength)

/-! ## Frames (30_encoding.md sections 1, 2 and 4) -/

/-- R60, R61, R62: the bytes of a read-request frame, of a normal read-response frame (for every number of words that the byte
count can hold) and of an exception-response frame, each at its offset. -/
def Obligations.FrameLayouts : Prop :=
  (∀ (sa fc : Byte) (ra q : Half),
      let body := [sa, fc, ra.extractLsb' 8 8, ra.extractLsb' 0 8, q.extractLsb' 8 8, q.extractLsb' 0 8]
      let c := crc16 body
      reqFrame sa fc ra q = body ++ [c.extractLsb' 0 8, c.extractLsb' 8 8]) ∧
    (∀ (sa fc : Byte) (ws : List Half), 1 ≤ ws.length → 2 * ws.length < 256 →
      let f := respFrame sa fc ws
      let n := ws.length
      let c := crc16 (f.take (3 + 2 * n))
      f.length = 5 + 2 * n ∧ f.getD 0 0#8 = sa ∧ f.getD 1 0#8 = fc ∧ (f.getD 2 0#8).toNat = 2 * n ∧
        (∀ i, i < n → f.getD (3 + 2 * i) 0#8 = (ws.getD i 0#16).extractLsb' 8 8 ∧
          f.getD (4 + 2 * i) 0#8 = (ws.getD i 0#16).extractLsb' 0 8) ∧
        f.getD (3 + 2 * n) 0#8 = c.extractLsb' 0 8 ∧ f.getD (4 + 2 * n) 0#8 = c.extractLsb' 8 8) ∧
    (∀ sa fc e : Byte,
      let body := [sa, fc ||| 0x80#8, e]
      let c := crc16 body
      excFrame sa fc e = body ++ [c.extractLsb' 0 8, c.extractLsb' 8 8])

/-- R63: in every frame the CRC field is the last two bytes, low byte first, and covers every byte before it. -/
def Obligations.CrcFieldCoversEveryByteBeforeIt : Prop :=
  (∀ f : List Byte, 2 ≤ f.length →
      (crcOk f = true ↔
        crc16 (f.take (f.length - 2)) =
          ((f.getD (f.length - 1) 0#8).setWidth 16 <<< 8) ||| (f.getD (f.length - 2) 0#8).setWidth 16)) ∧
    (∀ (sa fc : Byte) (ra q : Half), crcOk (reqFrame sa fc ra q) = true) ∧
    (∀ (sa fc : Byte) (ws : List Half), crcOk (respFrame sa fc ws) = true) ∧
    (∀ sa fc e : Byte, crcOk (excFrame sa fc e) = true)

/-- R64: the lengths of the three kinds of frame, and that each fits the frame buffer. -/
def Obligations.FrameLengths : Prop :=
  (∀ (sa fc : Byte) (ra q : Half), (reqFrame sa fc ra q).length = 8) ∧
    (∀ sa fc e : Byte, (excFrame sa fc e).length = 5) ∧
    (∀ (sa fc : Byte) (ws : List Half), 1 ≤ ws.length → ws.length ≤ 125 →
      (respFrame sa fc ws).length = 5 + 2 * ws.length ∧ 7 ≤ (respFrame sa fc ws).length ∧
        (respFrame sa fc ws).length ≤ 255) ∧
    255 ≤ Config.frameBufBytes

/-- R69: a reader of a byte stream tells a response frame's length from its first three bytes, so the first frame of a
stream is split off whole, whatever follows it. -/
def Obligations.StreamReaderFindsTheFirstFrame : Prop :=
  (∀ (sa fc : Byte) (ws : List Half) (rest : List Byte), fc.msb = false → 1 ≤ ws.length → ws.length ≤ 125 →
      splitResponse (respFrame sa fc ws ++ rest) = some (respFrame sa fc ws, rest)) ∧
    (∀ (sa fc e : Byte) (rest : List Byte), splitResponse (excFrame sa fc e ++ rest) = some (excFrame sa fc e, rest))

/-! ## The CRC commands (40_crc.md section 2) -/

/-- R102: CRC_INIT starts a new CRC from 0xFFFF and sets `crc_valid`, whatever `crc` held; it cannot fail; two in a row
leave the CRC as one does. -/
def Obligations.CrcInitStartsANewCrc : Prop :=
  CommandWord 0x01 .crcInit ∧
    ∀ s : State,
      Returns .crcInit s { s with crc := 0xFFFF#16, crcValid := true } (.ok .none) ∧
        ∃ t u : State, exec .crcInit s = .next t ∧ exec .crcInit t = .next u ∧ u.crc = t.crc ∧
          u.crcValid = t.crcValid

/-- R103: CRC_UPDATE folds one byte into a valid CRC and faults without one, with the rule's corner cases. -/
def Obligations.CrcUpdateFoldsOneByte : Prop :=
  (∀ b : Byte, CommandWord 0x02 (.crcUpdate b)) ∧
    (∀ (b : Byte) (s : State), s.crcValid = true →
      Returns (.crcUpdate b) s { s with crc := crcStep s.crc b } (.ok .none)) ∧
    (∀ (b : Byte) (s : State), s.crcValid = false → exec (.crcUpdate b) s = .fault .crcNotInitialised) ∧
    crcStep 0xFFFF#16 0x00#8 = 0x40BF#16 ∧ crcStep 0x0000#16 0x00#8 = 0x0000#16 ∧
    crcStep 0xFFFF#16 0xFF#8 = 0x00FF#16 ∧ crcStep 0xFFFF#16 0x01#8 = 0x807E#16

/-- R104: CRC_READ returns a valid CRC and changes nothing, so that it may be repeated; it faults without one. -/
def Obligations.CrcReadReturnsTheCrc : Prop :=
  CommandWord 0x03 .crcRead ∧
    (∀ s : State, s.crcValid = true → Returns .crcRead s s (.ok (.crc s.crc))) ∧
    (∀ s : State, s.crcValid = false → exec .crcRead s = .fault .crcNotInitialised) ∧
    (∀ s t : State, exec .crcInit s = .next t → Returns .crcRead t t (.ok (.crc 0xFFFF#16))) ∧
    (∀ s : State, ∃ t : State,
      execSeq (.crcInit :: [0x01#8, 0x03#8, 0x00#8, 0x00#8, 0x00#8, 0x01#8].map .crcUpdate) s = .next t ∧
        Returns .crcRead t t (.ok (.crc 0x0A84#16)))

/-- R105 and R73: CRC_BLOCK expands to CRC_INIT, one CRC_UPDATE a byte, CRC_READ; the commands return `CRC16(s)` and leave
it in `crc`; nothing else changes, the frame input buffer apart. -/
def Obligations.AccumulatorLaw : Prop :=
  ∀ (bs : List Byte) (s : State),
    crcBlock bs = [.crcInit] ++ bs.map .crcUpdate ++ [.crcRead] ∧
      ∃ t : State, execSeq (crcBlock bs) s = .next t ∧
        t = { s with
          crc := crc16 bs
          crcValid := true
          buf := t.buf
          len := t.len
          results := s.results ++ List.replicate (bs.length + 1) (.ok .none) ++ [.ok (.crc (crc16 bs))] }

/-- R195: there is one `crc` register: a CRC_INIT for a second sequence before the first sequence's CRC_READ loses the first
CRC, and a second sequence without CRC_INIT is mixed into the first. ENC_REQ, DEC_RESP and PARSE_REQ may be issued between
CRC_UPDATEs: they leave `crc` and `crc_valid` alone, and a CRC computed around one of them is the same. -/
def Obligations.InterleavedCrcsAreMixed : Prop :=
  (∀ (xs ys : List Byte) (s : State),
    (∃ t : State,
      execSeq (.crcInit :: (xs.map .crcUpdate ++ .crcInit :: (ys.map .crcUpdate ++ [.crcRead]))) s = .next t ∧
        t.crc = crc16 ys ∧ t.results.getLast? = some (.ok (.crc (crc16 ys)))) ∧
      ∃ t : State,
        execSeq (.crcInit :: (xs.map .crcUpdate ++ (ys.map .crcUpdate ++ [.crcRead]))) s = .next t ∧
          t.crc = crc16 (xs ++ ys) ∧ t.results.getLast? = some (.ok (.crc (crc16 (xs ++ ys))))) ∧
    ∀ (i : Instr), ((∃ sa fc ra q, i = .encReq sa fc ra q) ∨ (∃ b sa fc q, i = .decResp b sa fc q) ∨
        ∃ b, i = .parseReq b) →
      (∀ s t : State, exec i s = .next t → t.crc = s.crc ∧ t.crcValid = s.crcValid) ∧
      ∀ (xs ys : List Byte) (s t : State),
        execSeq (.crcInit :: (xs.map .crcUpdate ++ i :: (ys.map .crcUpdate ++ [.crcRead]))) s = .next t →
          t.crc = crc16 (xs ++ ys) ∧ t.results.getLast? = some (.ok (.crc (crc16 (xs ++ ys))))

/-- R20: only CRC_INIT and CRC_UPDATE write `crc`, and only CRC_UPDATE and CRC_READ read it: every other instruction does the
same whatever `crc` holds and leaves it alone, and CRC_INIT does the same whatever `crc` holds. -/
def Obligations.OnlyTheCrcCommandsTouchTheAccumulator : Prop :=
  (∀ (i : Instr) (s t : State), exec i s = .next t → i ≠ .crcInit → (∀ b, i ≠ .crcUpdate b) → t.crc = s.crc) ∧
    (∀ (i : Instr) (s : State) (v : Half), (∀ b, i ≠ .crcUpdate b) → i ≠ .crcRead → i ≠ .crcInit →
      exec i { s with crc := v } =
        match exec i s with
        | .next t => .next { t with crc := v }
        | .fault f => .fault f
        | .refused r => .refused r) ∧
    (∀ (s : State) (v : Half), exec .crcInit { s with crc := v } = exec .crcInit s)

/-- R21: CRC_INIT sets `crc_valid`; nothing clears it except reset; while it is set, `crc` holds what CRC_INIT or CRC_UPDATE
wrote last; CRC_UPDATE and CRC_READ fault while it is clear; no other instruction depends on it. -/
def Obligations.CrcValidIsClearedOnlyByReset : Prop :=
  (∀ (i : Instr) (s t : State), exec i s = .next t → t.crcValid = (s.crcValid || decide (i = .crcInit))) ∧
    (∀ s t : State, step s = .next t → s.crcValid = true → t.crcValid = false →
      ∃ rest, s.pending = .reset :: rest) ∧
    (∀ (i : Instr) (s t : State), exec i s = .next t → t.crcValid = true →
      (i = .crcInit ∧ t.crc = 0xFFFF#16) ∨ (∃ b, i = .crcUpdate b ∧ t.crc = crcStep s.crc b) ∨
        (s.crcValid = true ∧ t.crc = s.crc)) ∧
    (∀ (s : State), s.crcValid = false →
      (∀ b, exec (.crcUpdate b) s = .fault .crcNotInitialised) ∧ exec .crcRead s = .fault .crcNotInitialised) ∧
    (∀ (i : Instr) (s : State) (v : Bool), (∀ b, i ≠ .crcUpdate b) → i ≠ .crcRead → i ≠ .crcInit →
      exec i { s with crcValid := v } =
        match exec i s with
        | .next t => .next { t with crcValid := v }
        | .fault f => .fault f
        | .refused r => .refused r)

/-- 10_state.md R25, 70_reset_and_hazards.md R190 ("`crc` with no value"): while `crc_valid` is clear, what `crc` holds can
never be told from outside. Two machines that differ only in it return the same results for as long as they run, and once
`crc_valid` is set they agree on `crc` too. So no result rests on the value that assumption 2 names. -/
def Obligations.NothingRevealsTheCrcOfReset : Prop :=
  ∀ (s : State) (v : Half) (n : Nat), s.crcValid = false →
    let a := advances n s
    let b := advances n { s with crc := v }
    a.results = b.results ∧ a.crcValid = b.crcValid ∧ a.faultMark = b.faultMark ∧ a.refusedMark = b.refusedMark ∧
      a.buf = b.buf ∧ a.len = b.len ∧ a.pending = b.pending ∧ (a.crcValid = true → a.crc = b.crc)

/-! ## The request-frame encoder (41_frame_encode.md) -/

/-- R120: ENC_REQ, whole: refusal of another function code, `EncodingError` exactly for a quantity of 0 or above 125, and
otherwise the 8 bytes; neither the slave address nor the register address is checked; nothing but the result changes. -/
def Obligations.EncReqBuildsTheRequestFrame : Prop :=
  ∀ (sa fc : Byte) (ra qty : Half) (s : State),
    CommandWord 0x10 (.encReq sa fc ra qty) ∧
      (¬ BlockCode fc → exec (.encReq sa fc ra qty) s = .refused .unsupportedFunction) ∧
      (BlockCode fc → ¬ InRange qty →
        Returns (.encReq sa fc ra qty) s s (.encodingError .quantityOutOfRange)) ∧
      (BlockCode fc → InRange qty →
        let body := [sa, fc, ra.extractLsb' 8 8, ra.extractLsb' 0 8, qty.extractLsb' 8 8, qty.extractLsb' 0 8]
        let c := crc16 body
        Returns (.encReq sa fc ra qty) s s
          (.ok (.request (body ++ [c.extractLsb' 0 8, c.extractLsb' 8 8]))))

/-- R67 and R199 as the model has them: the block does not enforce the host's premise of slave addresses 1 to 247; ENC_REQ
encodes an address outside it all the same. -/
def Obligations.SlaveAddressIsAHostPremiseOnly : Prop :=
  ∀ (sa fc : Byte) (ra qty : Half) (s : State), ¬ hostSlaveAddress sa → BlockCode fc → InRange qty →
    (sa = 0x00#8 ∨ 248 ≤ sa.toNat) ∧
      ∃ out : List Byte, Returns (.encReq sa fc ra qty) s s (.ok (.request out)) ∧ out.head? = some sa

/-- R121: ENC_REQ is a pure function of its four operands. -/
def Obligations.EncReqIsPure : Prop :=
  ∀ (sa fc : Byte) (ra qty : Half),
    (∃ r : Result, ∀ s : State, Returns (.encReq sa fc ra qty) s s r) ∨
      (∀ s : State, exec (.encReq sa fc ra qty) s = .refused .unsupportedFunction)

/-- R122: every frame ENC_REQ returns has a correct CRC field and the CRC 0x0000. -/
def Obligations.EncReqFramesHaveCorrectCrc : Prop :=
  ∀ (sa fc : Byte) (ra qty : Half) (s t : State) (out : List Byte),
    exec (.encReq sa fc ra qty) s = .next t → t.results = s.results ++ [.ok (.request out)] →
      crcOk out = true ∧ crc16 out = 0x0000#16

/-- R123: ENC_REQ and PARSE_REQ are inverse on valid requests, both ways. -/
def Obligations.EncReqAndParseReqAreInverse : Prop :=
  (∀ (sa fc : Byte) (ra qty : Half) (s : State), BlockCode fc → InRange qty →
      ∃ out : List Byte, Returns (.encReq sa fc ra qty) s s (.ok (.request out)) ∧
        ∀ t : State, Returns (.parseReq (.presented out)) t t (.ok (.fields sa fc ra qty))) ∧
    (∀ (f : List Byte) (s t u : State) (sa fc : Byte) (ra qty : Half),
      exec (.parseReq (.presented f)) t = .next u → u.results = t.results ++ [.ok (.fields sa fc ra qty)] →
        Returns (.encReq sa fc ra qty) s s (.ok (.request f)))

/-! ## DEC_RESP (42_frame_parse.md section 1) -/

/-- R130 and R138: DEC_RESP, whole: refusals first, then the checks in the rule's order, the first that fails giving the
result. -/
def Obligations.DecRespReportsTheFirstFailedCheck : Prop :=
  (∀ (buf : BufOperand) (sa fc : Byte) (qty : Half), buf.wf = true → CommandWord 0x20 (.decResp buf sa fc qty)) ∧
  ∀ (buf : BufOperand) (sa fc : Byte) (qty : Half) (s : State), (s.present buf).len ≤ 256 →
    let t := s.present buf
    let f := t.frame
    let g := fun i => f.getD i 0#8
    let L := f.length
    (¬ BlockCode fc → exec (.decResp buf sa fc qty) s = .refused .unsupportedFunction) ∧
      (BlockCode fc → ¬ InRange qty → exec (.decResp buf sa fc qty) s = .refused .expectedQuantityOutOfRange) ∧
      (BlockCode fc → InRange qty →
        Returns (.decResp buf sa fc qty) s s
          (if L < 5 then .frameError .wrongLength
          else if crc16 (f.take (L - 2)) ≠ ((g (L - 1)).setWidth 16 <<< 8) ||| (g (L - 2)).setWidth 16 then
            .frameError .crcMismatch
          else if g 0 ≠ sa then .frameError .addressMismatch
          else if (g 1).getLsbD 7 = true then
            (if Config.excMatch = .strict ∧ g 1 ≠ fc ||| 0x80#8 then .frameError .functionMismatch
            else if L ≠ 5 then .frameError .wrongLength
            else .deviceExceptionError (g 2))
          else if g 1 ≠ fc then .frameError .functionMismatch
          else if (g 2).toNat ≠ 2 * qty.toNat then .frameError .byteCountMismatch
          else if L ≠ 5 + 2 * qty.toNat then .frameError .wrongLength
          else .ok (.words ((List.range qty.toNat).map fun i =>
            ((g (3 + 2 * i)).setWidth 16 <<< 8) ||| (g (4 + 2 * i)).setWidth 16))))

/-- R131: a buffer shorter than 5 bytes fails with `WrongLength` whatever bytes it holds. -/
def Obligations.ShortResponseIsWrongLength : Prop :=
  ∀ (buf : BufOperand) (sa fc : Byte) (qty : Half) (s : State), BlockCode fc → InRange qty →
    (s.present buf).len < 5 →
      Returns (.decResp buf sa fc qty) s s (.frameError .wrongLength)

/-- R132: a response whose trailing two bytes, read little-endian, are not the CRC of the bytes before them fails with
`CrcMismatch` whatever its fields are; equivalently, one whose CRC over all its bytes is not zero. -/
def Obligations.BadCrcIsReportedBeforeAnyField : Prop :=
  ∀ (buf : BufOperand) (sa fc : Byte) (qty : Half) (s : State), BlockCode fc → InRange qty →
    5 ≤ (s.present buf).len → (s.present buf).len ≤ 256 →
      let f := (s.present buf).frame
      let L := f.length
      (crc16 (f.take (L - 2)) ≠ ((f.getD (L - 1) 0#8).setWidth 16 <<< 8) ||| (f.getD (L - 2) 0#8).setWidth 16 →
        Returns (.decResp buf sa fc qty) s s (.frameError .crcMismatch)) ∧
      (crc16 f ≠ 0x0000#16 →
        Returns (.decResp buf sa fc qty) s s (.frameError .crcMismatch)) ∧
      (crc16 f = 0x0000#16 →
        ¬ Returns (.decResp buf sa fc qty) s s (.frameError .crcMismatch))

/-- R133: the slave echo, and what counts as an exception response under each value of the OPEN parameter `EXC_MATCH`. -/
def Obligations.SlaveEchoThenExceptionResponse : Prop :=
  ∀ (f : List Byte) (sa fc : Byte) (qty : Half), 5 ≤ f.length → f.length ≤ 256 → crcOk f = true →
    BlockCode fc → InRange qty → ∀ s : State,
      let i := Instr.decResp (.presented f) sa fc qty
      (f.getD 0 0#8 ≠ sa → Returns i s s (.frameError .addressMismatch)) ∧
        (f.getD 0 0#8 = sa → (f.getD 1 0#8).msb = true →
          Returns i s s
            (match Config.excMatch with
            | .strict =>
              if f.getD 1 0#8 = fc ||| 0x80#8 then
                (if f.length = 5 then .deviceExceptionError (f.getD 2 0#8) else .frameError .wrongLength)
              else .frameError .functionMismatch
            | .bit7 =>
              if f.length = 5 then .deviceExceptionError (f.getD 2 0#8) else .frameError .wrongLength))

/-- R163 and R164: DEC_RESP reports an exception only for a 5-byte frame with a correct CRC, the expected slave address and
bit 7 set in its function byte, and the code is byte 2 unchanged; and every one of the 256 codes is reported as it stands
from the exception response to the expected code, for either `EXC_MATCH`. -/
def Obligations.ExceptionCodeIsReportedUnchanged : Prop :=
  (∀ (buf : BufOperand) (sa fc : Byte) (qty : Half) (s t : State) (code : Byte),
      exec (.decResp buf sa fc qty) s = .next t → t.results = s.results ++ [.deviceExceptionError code] →
        let f := (s.present buf).frame
        code = f.getD 2 0#8 ∧ f.length = 5 ∧ crcOk f = true ∧ f.getD 0 0#8 = sa ∧ (f.getD 1 0#8).msb = true) ∧
    (∀ (sa fc code : Byte) (qty : Half) (s : State), BlockCode fc → InRange qty →
      Returns (.decResp (.presented (excFrame sa fc code)) sa fc qty) s s
        (.deviceExceptionError code))

/-- R134, R135, R136: for a response with a correct CRC and the expected slave address whose function byte has bit 7 clear: a
function byte other than the expected code is a `FunctionMismatch`; then a byte count other than twice the quantity is a
`ByteCountMismatch`, so that 0, an odd one and one above 250 always fail; then a total length other than `5 + 2*qty` is a
`WrongLength`, as for R136's frame with one zero byte appended. Extra bytes after an accepted frame are never ignored: they
fail with `WrongLength`, or with `CrcMismatch` as the CRC is taken from the last two bytes. -/
def Obligations.ResponseMismatchesInOrder : Prop :=
  (∀ (f : List Byte) (sa fc : Byte) (qty : Half) (s : State), 5 ≤ f.length → f.length ≤ 256 → crcOk f = true →
    BlockCode fc → InRange qty → f.getD 0 0#8 = sa → (f.getD 1 0#8).msb = false →
      let fails := fun e => Returns (.decResp (.presented f) sa fc qty) s s (.frameError e)
      let bc := (f.getD 2 0#8).toNat
      (f.getD 1 0#8 ≠ fc → fails .functionMismatch) ∧
        (f.getD 1 0#8 = fc → bc ≠ 2 * qty.toNat → fails .byteCountMismatch) ∧
        (f.getD 1 0#8 = fc → bc = 0 ∨ bc % 2 = 1 ∨ 250 < bc → fails .byteCountMismatch) ∧
        (f.getD 1 0#8 = fc → bc = 2 * qty.toNat → f.length ≠ 5 + 2 * qty.toNat → fails .wrongLength)) ∧
    (∀ (f extra : List Byte) (sa fc : Byte) (qty : Half) (ws : List Half) (s : State),
      Returns (.decResp (.presented f) sa fc qty) s s (.ok (.words ws)) → extra ≠ [] →
        (f ++ extra).length ≤ 256 →
          let fails := fun e => Returns (.decResp (.presented (f ++ extra)) sa fc qty) s s
            (.frameError e)
          fails .wrongLength ∨ fails .crcMismatch) ∧
    (let f : List Byte := [0x01#8, 0x03#8, 0x02#8, 0x00#8, 0x2A#8, 0x39#8, 0x9B#8, 0x00#8]
    crcOk f = true ∧ ∀ s : State,
      Returns (.decResp (.presented f) 0x01#8 0x03#8 1#16) s s (.frameError .wrongLength))

/-- R137: word `i` is bytes `3+2i` and `4+2i`, high byte first, in wire order, for each of the `qty` words. -/
def Obligations.ResponseWordsAreBigEndianInWireOrder : Prop :=
  ∀ (buf : BufOperand) (sa fc : Byte) (qty : Half) (s t : State) (ws : List Half),
    exec (.decResp buf sa fc qty) s = .next t → t.results = s.results ++ [.ok (.words ws)] →
      ws.length = qty.toNat ∧ ∀ i, i < qty.toNat →
        ws.getD i 0#16 =
          (((s.present buf).bufRead (3 + 2 * i)).setWidth 16 <<< 8) |||
            ((s.present buf).bufRead (4 + 2 * i)).setWidth 16

/-- R139: DEC_RESP is a pure function of its operands and writes no state: the frame presented with it alone decides its one
result, and nothing but the result changes, the frame input buffer apart. -/
def Obligations.DecRespIsPure : Prop :=
  ∀ (buf buf' : BufOperand) (sa fc : Byte) (qty : Half) (s s' : State),
    (s.present buf).frame = (s'.present buf').frame → (s.present buf).len ≤ 256 →
      (∃ r : Result, Returns (.decResp buf sa fc qty) s s r ∧
        Returns (.decResp buf' sa fc qty) s' s' r) ∨
      (∃ r : Refusal, exec (.decResp buf sa fc qty) s = .refused r ∧
        exec (.decResp buf' sa fc qty) s' = .refused r)

/-- R140: round trip: the slave's correct response decodes to its words, and the request it answers is encoded. -/
def Obligations.ResponseRoundTrip : Prop :=
  ∀ (sa fc : Byte) (ra qty : Half) (ws : List Half) (s t : State), BlockCode fc → InRange qty →
    ws.length = qty.toNat →
      Returns (.encReq sa fc ra qty) s s (.ok (.request (reqFrame sa fc ra qty))) ∧
        Returns (.decResp (.presented (respFrame sa fc ws)) sa fc qty) t t
          (.ok (.words ws))

/-- 42_frame_parse.md section 1: DEC_RESP accepts exactly the correct response frames: it returns words for a frame if and
only if the frame is `RespFrame` of the expected slave address, the expected code and those words, as many as expected. -/
def Obligations.DecRespAcceptsExactlyCorrectResponses : Prop :=
  ∀ (f : List Byte) (sa fc : Byte) (qty : Half) (ws : List Half) (s : State), BlockCode fc → InRange qty →
      (Returns (.decResp (.presented f) sa fc qty) s s (.ok (.words ws)) ↔
        f = respFrame sa fc ws ∧ ws.length = qty.toNat)

/-- R141: for every frame that DEC_RESP accepts or reports as an exception, flipping any one bit makes it return
`CrcMismatch`. -/
def Obligations.EverySingleBitFlipOfAResponseIsACrcMismatch : Prop :=
  ∀ (f : List Byte) (sa fc : Byte) (qty : Half) (s u : State) (r : Result),
    exec (.decResp (.presented f) sa fc qty) s = .next u → u.results = s.results ++ [r] →
    ((∃ ws, r = .ok (.words ws)) ∨ ∃ code, r = .deviceExceptionError code) →
      ∀ i j, i < f.length → j < 8 → ∀ t : State,
        Returns (.decResp (.presented (flipBit f i j)) sa fc qty) t t
          (.frameError .crcMismatch)

/-! ## PARSE_REQ (42_frame_parse.md section 2) -/

/-- R150: PARSE_REQ, whole: the checks in the rule's order, the first that fails giving the result. -/
def Obligations.ParseReqReportsTheFirstFailedCheck : Prop :=
  (∀ buf : BufOperand, buf.wf = true → CommandWord 0x21 (.parseReq buf)) ∧
  ∀ (buf : BufOperand) (s : State), (s.present buf).len ≤ 256 →
    let t := s.present buf
    let f := t.frame
    let g := fun i => f.getD i 0#8
    let be := fun i j => ((g i).setWidth 16 <<< 8 ||| (g j).setWidth 16 : Half)
    Returns (.parseReq buf) s s
      (if f.length ≠ 8 then .frameError .wrongLength
      else if crc16 (f.take 6) ≠ be 7 6 then .frameError .crcMismatch
      else if g 1 ≠ 0x03#8 ∧ g 1 ≠ 0x04#8 then .frameError .functionMismatch
      else if (be 4 5).toNat = 0 ∨ 125 < (be 4 5).toNat then .frameError .quantityOutOfRange
      else .ok (.fields (g 0) (g 1) (be 2 3) (be 4 5)))

/-- R151: PARSE_REQ accepts exactly the frames ENC_REQ can produce. -/
def Obligations.ParseReqAcceptsExactlyEncReqOutputs : Prop :=
  ∀ (f : List Byte) (s t : State),
    ((∃ sa fc ra qty, Returns (.parseReq (.presented f)) s s (.ok (.fields sa fc ra qty))) ↔
      ∃ sa fc ra qty, BlockCode fc ∧ InRange qty ∧ Returns (.encReq sa fc ra qty) t t (.ok (.request f)))

/-- R152: a request frame with a correct CRC and any function code other than 3 and 4 fails with `FunctionMismatch`, the
rule's write-single-register example among them. -/
def Obligations.ParseReqKnowsOnlyTheReadCodes : Prop :=
  (∀ (f : List Byte) (s : State), f.length = 8 → crcOk f = true → ¬ BlockCode (f.getD 1 0#8) →
      Returns (.parseReq (.presented f)) s s (.frameError .functionMismatch)) ∧
    (let f : List Byte := [0x01#8, 0x06#8, 0x00#8, 0x01#8, 0x00#8, 0x03#8, 0x98#8, 0x0B#8]
    crcOk f = true ∧ ∀ s : State,
      Returns (.parseReq (.presented f)) s s (.frameError .functionMismatch))

/-! ## The frame rows and the frame input buffer (20_memory.md section 1; assumption 4) -/

/-- 20_memory.md R40, R41 and the layouts of 30_encoding.md section 1, with the model's choice that a frame row is the host
handing the block a frame (assumption 4): each of the seven frame kinds completes; afterwards the buffer holds exactly the
frame's bytes at the offsets of its layout with its length, every byte above them reads as before, and nothing else
changes. -/
def Obligations.HandedFrameStandsInTheBuffer : Prop :=
  let stands := fun (i : Instr) (bs : List Byte) => ∀ s : State, ∃ t : State,
    exec i s = .next t ∧ t.len = bs.length ∧ t.frame = bs ∧ (∀ a, bs.length ≤ a → t.bufRead a = s.bufRead a) ∧
      t = { s with buf := t.buf, len := t.len }
  let b := fun (w : Half) => w.extractLsb' 8 8
  let l := fun (w : Half) => w.extractLsb' 0 8
  (∀ (sa : Byte) (ra q c : Half),
      stands (.frameReadRequestFc3 sa ra q c) [sa, 0x03#8, b ra, l ra, b q, l q, l c, b c] ∧
        stands (.frameReadRequestFc4 sa ra q c) [sa, 0x04#8, b ra, l ra, b q, l q, l c, b c]) ∧
    (∀ (sa : Byte) (ws : List Half) (c : Half), 1 ≤ ws.length → ws.length ≤ 125 →
      let n := BitVec.ofNat 8 (2 * ws.length)
      stands (.frameReadResponseFc3 sa ws c) ([sa, 0x03#8, n] ++ ws.flatMap (fun w => [b w, l w]) ++ [l c, b c]) ∧
        stands (.frameReadResponseFc4 sa ws c) ([sa, 0x04#8, n] ++ ws.flatMap (fun w => [b w, l w]) ++ [l c, b c])) ∧
    (∀ (sa e : Byte) (c : Half),
      stands (.frameExceptionFc3 sa e c) [sa, 0x83#8, e, l c, b c] ∧
        stands (.frameExceptionFc4 sa e c) [sa, 0x84#8, e, l c, b c]) ∧
    (∀ (sa f e : Byte) (c : Half), stands (.frameExceptionAnyBit7 sa f e c) [sa, f, e, l c, b c])

/-- 42_frame_parse.md sections 1 and 2, with assumption 4: what the commands make of a handed frame of each kind whose CRC
field is correct: PARSE_REQ returns a request's fields, DEC_RESP a response's words and an exception's code; a high-bit-set
function byte other than `fc OR 0x80` is an exception or a mismatch as `EXC_MATCH` says. -/
def Obligations.HandedFramesAreParsedByTheirKind : Prop :=
  let thenReturns := fun (h c : Instr) (r : Result) => ∀ s : State, ∃ t : State, exec h s = .next t ∧ Returns c t t r
  (∀ (sa : Byte) (ra q : Half), InRange q →
      thenReturns (.frameReadRequestFc3 sa ra q (crc16 (reqBody sa 0x03#8 ra q))) (.parseReq .held)
        (.ok (.fields sa 0x03#8 ra q)) ∧
      thenReturns (.frameReadRequestFc4 sa ra q (crc16 (reqBody sa 0x04#8 ra q))) (.parseReq .held)
        (.ok (.fields sa 0x04#8 ra q))) ∧
    (∀ (sa : Byte) (ws : List Half) (q : Half), InRange q → ws.length = q.toNat →
      thenReturns (.frameReadResponseFc3 sa ws (crc16 (respBody sa 0x03#8 ws))) (.decResp .held sa 0x03#8 q)
        (.ok (.words ws)) ∧
      thenReturns (.frameReadResponseFc4 sa ws (crc16 (respBody sa 0x04#8 ws))) (.decResp .held sa 0x04#8 q)
        (.ok (.words ws))) ∧
    (∀ (sa e : Byte) (q : Half), InRange q →
      thenReturns (.frameExceptionFc3 sa e (crc16 [sa, 0x83#8, e])) (.decResp .held sa 0x03#8 q)
        (.deviceExceptionError e) ∧
      thenReturns (.frameExceptionFc4 sa e (crc16 [sa, 0x84#8, e])) (.decResp .held sa 0x04#8 q)
        (.deviceExceptionError e)) ∧
    (∀ (sa f e fc : Byte) (q : Half), InRange q → BlockCode fc → f.msb = true → f ≠ fc ||| 0x80#8 →
      thenReturns (.frameExceptionAnyBit7 sa f e (crc16 [sa, f, e])) (.decResp .held sa fc q)
        (match Config.excMatch with
        | .strict => .frameError .functionMismatch
        | .bit7 => .deviceExceptionError e))

/-- 20_memory.md R41: bytes at index `len` and above are never read and have no effect: DEC_RESP and PARSE_REQ of the frame
the host has filled the buffer with have the same outcome, state and all, whatever stands above `len`. (That the two next
states agree in the buffer rests on assumption 5.) -/
def Obligations.BytesAboveTheLengthHaveNoEffect : Prop :=
  ∀ (s : State) (m : Memory), (∀ i, i < s.len → Memory.read m i = s.bufRead i) →
    exec (.parseReq .held) { s with buf := m } = exec (.parseReq .held) s ∧
      ∀ (sa fc : Byte) (qty : Half),
        exec (.decResp .held sa fc qty) { s with buf := m } = exec (.decResp .held sa fc qty) s

/-! ## The command interface (10_state.md section 2, 30_encoding.md section 5) -/

/-- R70: each command word of the table selects its command. -/
def Obligations.CommandWordsSelectTheirCommands : Prop :=
  decode (.command { cmd := 0x01 }) = .ok .crcInit ∧
    decode (.command { cmd := 0x02, b := 0x5A }) = .ok (.crcUpdate 0x5A#8) ∧
    decode (.command { cmd := 0x03 }) = .ok .crcRead ∧
    decode (.command { cmd := 0x10, sa := 0x01, fc := 0x03, ra := 0x0100, qty := 0x0001 }) =
      .ok (.encReq 0x01#8 0x03#8 0x0100#16 0x0001#16) ∧
    decode (.command { cmd := 0x20, sa := 0x11, fc := 0x04, qty := 0x0002, buf := some ⟨[0x01, 0x83], 2⟩ }) =
      .ok (.decResp (.presented [0x01#8, 0x83#8]) 0x11#8 0x04#8 0x0002#16) ∧
    decode (.command { cmd := 0x21, buf := some ⟨[0xF7, 0x03, 0xFF], 2⟩ }) =
      .ok (.parseReq (.presented [0xF7#8, 0x03#8])) ∧
    decode (.frame .rtuRequest [0x01#8, 0x03#8, 0x01#8, 0x00#8, 0x00#8, 0x01#8, 0x85#8, 0xF6#8]) =
      .ok (.frameReadRequestFc3 0x01#8 0x0100#16 0x0001#16 0xF685#16) ∧
    decode (.frame .rtuResponse [0x01#8, 0x04#8, 0x02#8, 0x00#8, 0x2A#8, 0x38#8, 0xEF#8]) =
      .ok (.frameReadResponseFc4 0x01#8 [0x002A#16] 0xEF38#16) ∧
    decode (.frame .rtuException [0x01#8, 0x83#8, 0x02#8, 0xC0#8, 0xF1#8]) =
      .ok (.frameExceptionFc3 0x01#8 0x02#8 0xF1C0#16)

/-- R71: every other command value is reserved: it decodes to RESERVED, whatever the operands, and the block refuses it with
`ReservedCommand`, never taking it as a hint or a no-op. -/
def Obligations.EveryOtherCommandWordIsReserved : Prop :=
  ∀ (c : CommandInput) (s : State) (rest : List HostInput), c.cmd < 256 →
    c.cmd ≠ 0x01 → c.cmd ≠ 0x02 → c.cmd ≠ 0x03 → c.cmd ≠ 0x10 → c.cmd ≠ 0x20 → c.cmd ≠ 0x21 →
      decode (.command c) = .ok (.reserved (BitVec.ofNat 8 c.cmd)) ∧
        (∀ t : State, exec (.reserved (BitVec.ofNat 8 c.cmd)) t = .refused .reservedCommand) ∧
        (s.faultMark = false → s.refusedMark = false → s.pending = .present (.command c) :: rest →
          step s = .refused .reservedCommand)

/-- 10_state.md section 2 (R26) and R171: an operand the command does not use is ignored, and an operand it uses that does
not fit its width, or a length above 256, is refused. The order of the two refusals, and that a listed byte at index `len` or
above is ignored even when too wide, are assumption 10. -/
def Obligations.OnlyUsedOperandsMatter : Prop :=
  (∀ c : CommandInput, c.cmd = 0x01 → decode (.command c) = .ok .crcInit) ∧
    (∀ c : CommandInput, c.cmd = 0x03 → decode (.command c) = .ok .crcRead) ∧
    (∀ c : CommandInput, c.cmd = 0x02 →
      decode (.command c) =
        if c.b < 256 then .ok (.crcUpdate (BitVec.ofNat 8 c.b)) else .error .operandTooWide) ∧
    (∀ c : CommandInput, c.cmd = 0x10 →
      decode (.command c) =
        if c.sa < 256 ∧ c.fc < 256 ∧ c.ra < 65536 ∧ c.qty < 65536 then
          .ok (.encReq (BitVec.ofNat 8 c.sa) (BitVec.ofNat 8 c.fc) (BitVec.ofNat 16 c.ra) (BitVec.ofNat 16 c.qty))
        else .error .operandTooWide) ∧
    (∀ (c : CommandInput) (b : BufInput), c.cmd = 0x20 ∨ c.cmd = 0x21 → c.buf = some b → 256 < b.len →
      decode (.command c) = .error .frameTooLong) ∧
    (∀ c d : CommandInput, c.cmd = 0x20 → d.cmd = 0x20 → c.sa = d.sa → c.fc = d.fc → c.qty = d.qty → c.buf = d.buf →
      decode (.command c) = decode (.command d)) ∧
    (∀ c d : CommandInput, c.cmd = 0x21 → d.cmd = 0x21 → c.buf = d.buf →
      decode (.command c) = decode (.command d)) ∧
    (∀ (c : CommandInput) (b : BufInput), c.cmd = 0x20 ∨ c.cmd = 0x21 → c.buf = some b → b.len ≤ 256 →
      (∃ v ∈ b.bytes.take b.len, 256 ≤ v) → decode (.command c) = .error .operandTooWide) ∧
    (∀ c : CommandInput, c.cmd = 0x20 → (∀ b, c.buf = some b → b.len ≤ 256) →
      256 ≤ c.sa ∨ 256 ≤ c.fc ∨ 65536 ≤ c.qty → decode (.command c) = .error .operandTooWide) ∧
    (∀ c : CommandInput, 256 ≤ c.cmd → decode (.command c) = .error .operandTooWide) ∧
    (∀ (c : CommandInput) (e : DecodeError) (s : State) (rest : List HostInput), s.faultMark = false →
      s.refusedMark = false → s.pending = .present (.command c) :: rest → decode (.command c) = .error e →
        (e = .operandTooWide ∧ step s = .refused .operandTooWide) ∨
          (e = .frameTooLong ∧ step s = .refused .frameTooLong))

/-- 30_encoding.md sections 1 and 5: decoding the encoding of any well-formed instruction gives it back, with every operand
at every value. -/
def Obligations.DecodeOfEncodeIsTheInstruction : Prop :=
  ∀ i : Instr, i.wf = true → decode (encode i) = .ok i

/-- 30_encoding.md section 1: decoding loses nothing of a frame: the bytes of a frame that decodes are the bytes its
instruction encodes to. -/
def Obligations.EncodeOfDecodedFrameIsTheFrame : Prop :=
  ∀ (fmt : FrameFormat) (bs : List Byte) (i : Instr), decode (.frame fmt bs) = .ok i →
    i.wf = true ∧ encode i = .frame fmt bs

/-! ## Results, errors, faults and refusals (60_exceptions.md) -/

/-- R28: every command that completes returns exactly one result, of the kinds its row names; outputs that a kind does not
name are absent. (A frame row is no command; that it returns none is in `HandedFrameStandsInTheBuffer`.) -/
def Obligations.EveryCommandReturnsOneResult : Prop :=
  (∀ (i : Instr) (s t : State), exec i s = .next t →
    match i with
    | .crcInit => t.results = s.results ++ [.ok .none]
    | .crcUpdate _ => t.results = s.results ++ [.ok .none]
    | .crcRead => ∃ c, t.results = s.results ++ [.ok (.crc c)]
    | .encReq _ _ _ _ => (∃ e, t.results = s.results ++ [.encodingError e]) ∨
        ∃ out, t.results = s.results ++ [.ok (.request out)] ∧ (Payload.request out).outLen = some 8
    | .decResp _ _ _ qty => (∃ e, t.results = s.results ++ [.frameError e]) ∨
        (∃ c, t.results = s.results ++ [.deviceExceptionError c]) ∨
        ∃ ws, t.results = s.results ++ [.ok (.words ws)] ∧ (Payload.words ws).nwords = some qty.toNat
    | .parseReq _ => (∃ e, t.results = s.results ++ [.frameError e]) ∨
        ∃ sa fc ra q, t.results = s.results ++ [.ok (.fields sa fc ra q)]
    | .reserved _ => False
    | .frameReadRequestFc3 _ _ _ _ | .frameReadRequestFc4 _ _ _ _ | .frameReadResponseFc3 _ _ _
    | .frameReadResponseFc4 _ _ _ | .frameExceptionFc3 _ _ _ | .frameExceptionFc4 _ _ _
    | .frameExceptionAnyBit7 _ _ _ _ => True) ∧
  (∀ p : Payload, (Result.ok p).status = 0#2 ∧ (Result.ok p).reason = none ∧ (Result.ok p).excCode = none) ∧
  (∀ e, (Result.encodingError e).status = 1#2 ∧ (Result.encodingError e).payload = none ∧
    (Result.encodingError e).excCode = none) ∧
  (∀ e, (Result.frameError e).status = 2#2 ∧ (Result.frameError e).payload = none ∧
    (Result.frameError e).excCode = none) ∧
  (∀ c, (Result.deviceExceptionError c).status = 3#2 ∧ (Result.deviceExceptionError c).payload = none ∧
    (Result.deviceExceptionError c).reason = none ∧ (Result.deviceExceptionError c).excCode = some c)

/-- R160 and the code column of R162: the three error kinds, their status codes, the reason codes of `FrameError`, and the
commands that raise each kind and reason: no other instruction raises it. -/
def Obligations.ErrorKindsAndWhoRaisesThem : Prop :=
  (∀ e, (Result.encodingError e).status = 1#2) ∧ (∀ e, (Result.frameError e).status = 2#2) ∧
    (∀ c, (Result.deviceExceptionError c).status = 3#2) ∧
    [FrameReason.wrongLength, .crcMismatch, .addressMismatch, .functionMismatch, .byteCountMismatch,
      .quantityOutOfRange].map FrameReason.code = [1#3, 2#3, 3#3, 4#3, 5#3, 6#3] ∧
    ∀ (i : Instr) (s t : State) (r : Result), exec i s = .next t → t.results = s.results ++ [r] →
      ((∃ e, r = .encodingError e) → ∃ sa fc ra q, i = .encReq sa fc ra q) ∧
        ((∃ e, r = .frameError e) → (∃ b sa fc q, i = .decResp b sa fc q) ∨ ∃ b, i = .parseReq b) ∧
        (r = .frameError .addressMismatch ∨ r = .frameError .byteCountMismatch →
          ∃ b sa fc q, i = .decResp b sa fc q) ∧
        (r = .frameError .quantityOutOfRange → ∃ b, i = .parseReq b) ∧
        ((∃ c, r = .deviceExceptionError c) → ∃ b sa fc q, i = .decResp b sa fc q)

/-- R161: `EncodingError` has the one reason `QuantityOutOfRange`, code 6, raised exactly by ENC_REQ with a quantity of 0 or
above 125; it is never retried. -/
def Obligations.EncodingErrorExactlyForBadQuantity : Prop :=
  (∀ e : EncodingReason, e.code = 6#3 ∧ (Result.encodingError e).retriability = some .never) ∧
    ∀ (i : Instr) (s t : State), exec i s = .next t →
      ((∃ e, t.results = s.results ++ [.encodingError e]) ↔
        ∃ sa fc ra q, i = .encReq sa fc ra q ∧ (q.toNat = 0 ∨ 125 < q.toNat))

/-- R168: errors are precise: a command that returns an error has had no effect on `crc`, `crc_valid` or anything else; the
error stands in place of the success result. (The frame input buffer is an operand input: see `NoFrameSurvivesACommand`.) -/
def Obligations.ErrorsChangeNothing : Prop :=
  ∀ (i : Instr) (s t : State) (r : Result), exec i s = .next t → t.results = s.results ++ [r] → r.status ≠ 0#2 →
    t = { s with buf := t.buf, len := t.len, results := s.results ++ [r] }

/-- R170: the one fault of a command is `CrcNotInitialised`, exactly for CRC_UPDATE or CRC_READ with `crc_valid = 0`; the
command returns no result and the model sets its `fault` mark, which no later command and no reset clears. -/
def Obligations.FaultExactlyWithoutAValidCrc : Prop :=
  (∀ (i : Instr) (s : State) (f : Fault),
      exec i s = .fault f ↔
        f = .crcNotInitialised ∧ s.crcValid = false ∧ ((∃ b, i = .crcUpdate b) ∨ i = .crcRead)) ∧
    (∀ (s : State) (f : Fault), s.faultMark = false → s.refusedMark = false → step s = .fault f →
      (advance s).faultMark = true ∧ (advance s).results = s.results) ∧
    (∀ (s : State) (n : Nat), s.faultMark = true →
      (advances n s).faultMark = true ∧ (advances n s).results = s.results ∧ ¬ Successful (advances n s) ∧
        s.applyReset.faultMark = true)

/-- 60_exceptions.md section 3 (R171): exactly when a command is refused, and that it returns no result and sets the `refused`
mark for the whole run. Which refusal names a command that several apply to (FrameTooLong before OperandTooWide, both before
UnsupportedFunction) is the model's choice, assumption 10. -/
def Obligations.RefusalsAreExactlyThoseListed : Prop :=
  (∀ (i : Instr) (s : State), i.wf = true → s.len ≤ 256 →
      ((∃ r, exec i s = .refused r) ↔
        (∃ cmd, i = .reserved cmd) ∨ (∃ sa fc ra q, i = .encReq sa fc ra q ∧ ¬ BlockCode fc) ∨
          ∃ b sa fc q, i = .decResp b sa fc q ∧ (¬ BlockCode fc ∨ ¬ InRange q))) ∧
    (∀ (cmd : Byte) (s : State), exec (.reserved cmd) s = .refused .reservedCommand) ∧
    (∀ (sa fc : Byte) (ra q : Half) (s : State), ¬ BlockCode fc →
      exec (.encReq sa fc ra q) s = .refused .unsupportedFunction) ∧
    (∀ (b : BufOperand) (sa fc : Byte) (q : Half) (s : State), b.wf = true → s.len ≤ 256 → ¬ BlockCode fc →
      exec (.decResp b sa fc q) s = .refused .unsupportedFunction) ∧
    (∀ (b : BufOperand) (sa fc : Byte) (q : Half) (s : State), b.wf = true → s.len ≤ 256 → BlockCode fc →
      ¬ InRange q → exec (.decResp b sa fc q) s = .refused .expectedQuantityOutOfRange) ∧
    (∀ (bs : List Byte) (sa fc : Byte) (q : Half) (s : State), 256 < bs.length →
      exec (.decResp (.presented bs) sa fc q) s = .refused .frameTooLong ∧
        exec (.parseReq (.presented bs)) s = .refused .frameTooLong) ∧
    (∀ (c : CommandInput) (rest : List HostInput) (s : State), s.faultMark = false → s.refusedMark = false →
      s.pending = .present (.command c) :: rest →
        let tooLong := (c.cmd = 0x20 ∨ c.cmd = 0x21) ∧ ∃ b, c.buf = some b ∧ 256 < b.len
        (tooLong → step s = .refused .frameTooLong) ∧
        (¬ tooLong →
          256 ≤ c.cmd ∨ (c.cmd = 0x02 ∧ 256 ≤ c.b) ∨
              (c.cmd = 0x10 ∧ (256 ≤ c.sa ∨ 256 ≤ c.fc ∨ 65536 ≤ c.ra ∨ 65536 ≤ c.qty)) ∨
              (c.cmd = 0x20 ∧ (256 ≤ c.sa ∨ 256 ≤ c.fc ∨ 65536 ≤ c.qty)) ∨
              ((c.cmd = 0x20 ∨ c.cmd = 0x21) ∧ ∃ b, c.buf = some b ∧ ∃ v ∈ b.bytes.take b.len, 256 ≤ v) →
            step s = .refused .operandTooWide)) ∧
    (∀ (s : State) (r : Refusal), s.faultMark = false → s.refusedMark = false → step s = .refused r →
      (advance s).refusedMark = true ∧ (advance s).results = s.results) ∧
    (∀ (s : State) (n : Nat), s.refusedMark = true →
      (advances n s).refusedMark = true ∧ (advances n s).results = s.results ∧ s.applyReset.refusedMark = true)

/-- The frame of every instruction (10_state.md section 1, 20_memory.md section 1, 60_exceptions.md section 2): when an
instruction answers a next state, the marks and the host's queue are as before; `crc_valid` changes only by CRC_INIT, `crc`
only by CRC_INIT and CRC_UPDATE; a command adds one result and leaves the buffer unfilled, every byte of it (assumption 5); a
frame handed over adds no result, stores its bytes from index 0 on, sets `len` to their number and leaves every other byte
of the buffer alone (assumption 4). -/
def Obligations.EachInstructionsFrame : Prop :=
  ∀ (i : Instr) (s t : State), exec i s = .next t →
    t.faultMark = s.faultMark ∧ t.refusedMark = s.refusedMark ∧ t.pending = s.pending ∧
      (i ≠ .crcInit → t.crcValid = s.crcValid) ∧
      (i ≠ .crcInit → (∀ b, i ≠ .crcUpdate b) → t.crc = s.crc) ∧
      (isCommand i = true →
        (∃ r, t.results = s.results ++ [r]) ∧ t.len = 0 ∧ ∀ a, t.bufRead a = Config.unfilledByte) ∧
      (isCommand i = false →
        t.results = s.results ∧ t.len = (frameBytes i).length ∧
          (∀ a, a < (frameBytes i).length → t.bufRead a = (frameBytes i).getD a 0#8) ∧
          ∀ a, (frameBytes i).length ≤ a → t.bufRead a = s.bufRead a)

/-! ## Reset, steps and runs (70_reset_and_hazards.md, 20_memory.md section 4) -/

/-- 70_reset_and_hazards.md section 1 (R190): reset between commands clears `crc_valid` and changes nothing else that has a
value: not the marks, not what was returned, not what the host presents next; after it the block waits for the host's next
command. That a reset is an item of the host's queue, and that a step with nothing presented answers the same state, are
the model's form (assumption 6); that the host's input buffer and `len` stay across a reset is the model's choice
(assumption 14). -/
def Obligations.ResetClearsOnlyCrcValid : Prop :=
  (∀ (s : State) (rest : List HostInput), s.faultMark = false → s.refusedMark = false →
      s.pending = .reset :: rest →
        ∃ t : State, step s = .next t ∧ t.crcValid = false ∧
          t = { s with crc := t.crc, crcValid := false, pending := rest }) ∧
    (∀ s : State, s.applyReset.crcValid = false ∧ s.applyReset.faultMark = s.faultMark ∧
      s.applyReset.refusedMark = s.refusedMark) ∧
    (∀ s : State, s.faultMark = false → s.refusedMark = false → s.pending = [] → step s = .next s) ∧
    State.reset.crcValid = false ∧ State.reset.faultMark = false ∧ State.reset.refusedMark = false ∧
    step State.reset = .next State.reset

/-- R191: right after a reset, of power-on or asserted, CRC_INIT, ENC_REQ, DEC_RESP and PARSE_REQ complete at once with the
results their rules give (the results `EncReqBuildsTheRequestFrame`, `DecRespReportsTheFirstFailedCheck` and
`ParseReqReportsTheFirstFailedCheck` spell out); CRC_UPDATE and CRC_READ fault. -/
def Obligations.RightAfterReset : Prop :=
  ∀ t : State, t = State.reset ∨ (∃ s : State, t = s.applyReset) →
    Returns .crcInit t { t with crc := 0xFFFF#16, crcValid := true } (.ok .none) ∧
      (∀ (sa fc : Byte) (ra q : Half), BlockCode fc →
        Returns (.encReq sa fc ra q) t t (encReqResult sa fc ra q)) ∧
      (∀ (b : BufOperand) (sa fc : Byte) (q : Half), BlockCode fc → InRange q → (t.present b).len ≤ 256 →
        Returns (.decResp b sa fc q) t t (decRespResult Config.excMatch (t.present b).frame sa fc q)) ∧
      (∀ b : BufOperand, (t.present b).len ≤ 256 →
        Returns (.parseReq b) t t (parseReqResult (t.present b).frame)) ∧
      (∀ b, exec (.crcUpdate b) t = .fault .crcNotInitialised) ∧ exec .crcRead t = .fault .crcNotInitialised

/-- 20_memory.md R50, 10_state.md R24: a step runs the instruction the host presents next: when what it presents decodes to
`i`, the step is `exec i` with that item taken off the host's queue (the queue is the model's form of the interface,
assumption 6); and what `withFetchWord` places is run so. -/
def Obligations.StepRunsThePresentedInstruction : Prop :=
  (∀ (s : State) (e : Encoded) (rest : List HostInput) (i : Instr), s.faultMark = false → s.refusedMark = false →
      s.pending = .present e :: rest → decode e = .ok i → step s = exec i { s with pending := rest }) ∧
    (∀ (s : State) (nbits w : Nat) (i : Instr), s.faultMark = false → s.refusedMark = false →
      decodeTableWord nbits w = some i → step (s.withFetchWord nbits w) = exec i s)

/-- 10_state.md R24, 70_reset_and_hazards.md R200: a run over the encodings of a sequence of well-formed instructions is
those instructions one after another from reset: it ends successful in the same state when they all complete, and
marked when one of them faults or is refused. The queue and the way a mark is set are the model's form (assumptions 6, 7). -/
def Obligations.RunIsItsInstructionsInOrder : Prop :=
  ∀ is : List Instr, (∀ i ∈ is, i.wf = true) →
    (∀ t : State, execSeq is State.reset = .next t → runEnd (is.map encode) = t ∧ Successful t) ∧
      (∀ f : Fault, execSeq is State.reset = .fault f →
        (runEnd (is.map encode)).faultMark = true ∧ ¬ Successful (runEnd (is.map encode))) ∧
      (∀ r : Refusal, execSeq is State.reset = .refused r →
        (runEnd (is.map encode)).refusedMark = true ∧ ¬ Successful (runEnd (is.map encode)))

/-- 20_memory.md R41, 10_state.md R28: every step keeps the invariant: the buffer stays in canonical form within its
capacity, and every result returned is one a command may return. -/
def Obligations.EveryStepKeepsTheInvariant : Prop :=
  ∀ s t : State, StateInv s → step s = .next t → StateInv t

/-- The invariant holds right after reset. -/
def Obligations.ResetMeetsTheInvariant : Prop := StateInv State.reset

/-! ## What a command leaves of the frame presented with it -/

/-- 10_state.md R22 and 20_memory.md R52, as assumption 5 reads them: no frame survives a command, and a frame is read only by
the command it is presented with. When a command completes the buffer is unfilled; a command that brings its operands gives
the same outcome whatever the buffer held; a frame handed over is presented with the next command exactly as if that command
brought it; after any command has completed, a command that brings no frame finds the empty one. -/
def Obligations.NoFrameSurvivesACommand : Prop :=
  let same := fun (t : State) (bs : List Byte) (s : State) =>
    exec (.parseReq .held) t = exec (.parseReq (.presented bs)) s ∧
      ∀ (sa fc : Byte) (qty : Half), exec (.decResp .held sa fc qty) t = exec (.decResp (.presented bs) sa fc qty) s
  (∀ (i : Instr) (s t : State), isCommand i = true → exec i s = .next t →
      t.buf = [] ∧ t.len = 0 ∧ t.frame = [] ∧ same t [] t) ∧
    (∀ (i : Instr) (s : State) (m : Memory) (n : Nat), isCommand i = true → readsHeldFrame i = false →
      exec i { s with buf := m, len := n } = exec i s) ∧
    (∀ (i : Instr) (s t : State), isCommand i = false → exec i s = .next t → same t (frameBytes i) s)
end

