-- ==== Sys2Proof/Laws/Decode.lean ====
section
/-!
SUPPORT. What the parts of the decoder answer: an operand that fits, an operand that does not, the buffer operand, and a
command whose word fits.
-/

namespace Sys2Proof

/-! ## Operands -/

/-- An operand of its width is taken as it is. -/
@[simp] theorem operand_toNat {w : Nat} (b : BitVec w) : operand w b.toNat = .ok b := by
  simp [operand, b.isLt]

theorem operand_of_lt {w v : Nat} (h : v < 2 ^ w) : operand w v = .ok (BitVec.ofNat w v) := if_pos h

theorem operand_of_ge {w v : Nat} (h : 2 ^ w ≤ v) : operand w v = .error .operandTooWide := if_neg (by omega)

@[simp] theorem operandBytes_map_toNat (bs : List Byte) : operandBytes (bs.map (·.toNat)) = .ok bs := by
  induction bs with
  | nil => rfl
  | cons b bs ih => simp only [List.map_cons, operandBytes, operand_toNat, ih]

/-- A presented frame that fits the buffer is taken as it is; so is the buffer the host filled before. -/
theorem bufOperand_toInput {buf : BufOperand} (h : buf.wf = true) : bufOperand buf.toInput = .ok buf := by
  cases buf with
  | held => rfl
  | presented bs =>
    simp only [BufOperand.wf, decide_eq_true_eq] at h
    have ht : List.take bs.length (bs.map (·.toNat)) = bs.map (·.toNat) :=
      List.take_of_length_le (by simp)
    simp only [bufOperand, BufOperand.toInput, if_neg (Nat.not_lt.2 h), ht, operandBytes_map_toNat]
    simp

/-! ## Commands -/

/-- A command word that fits selects the command; the operands decide the rest. -/
theorem decodeCommand_of_word {c : CommandInput} {v : Byte} (h : c.cmd = v.toNat) :
    decodeCommand c = decodeOperands v c := by
  rw [decodeCommand, h, operand_toNat]
  rfl

/-- A command word that does not fit is rejected. -/
theorem decodeCommand_of_wide {c : CommandInput} (h : 256 ≤ c.cmd) :
    decodeCommand c = .error .operandTooWide := by
  rw [decodeCommand, operand_of_ge h]
  rfl

@[simp] theorem bind_ok {α β : Type} (a : α) (k : α → Except DecodeError β) : (Except.ok a >>= k) = k a := rfl

@[simp] theorem bind_error {α β : Type} (e : DecodeError) (k : α → Except DecodeError β) :
    (Except.error e >>= k) = Except.error e := rfl

@[simp] theorem pure_eq_ok {α : Type} (a : α) : (pure a : Except DecodeError α) = .ok a := rfl

/-! ### The operands each command word reads -/

theorem decodeOperands_crcInit (c : CommandInput) : decodeOperands cmdCrcInit c = .ok .crcInit := rfl

theorem decodeOperands_crcUpdate (c : CommandInput) :
    decodeOperands cmdCrcUpdate c = (operand 8 c.b >>= fun b => .ok (.crcUpdate b)) := rfl

theorem decodeOperands_crcRead (c : CommandInput) : decodeOperands cmdCrcRead c = .ok .crcRead := rfl

theorem decodeOperands_encReq (c : CommandInput) :
    decodeOperands cmdEncReq c =
      (operand 8 c.sa >>= fun sa => operand 8 c.fc >>= fun fc => operand 16 c.ra >>= fun ra =>
        operand 16 c.qty >>= fun qty => .ok (.encReq sa fc ra qty)) := rfl

theorem decodeOperands_decResp (c : CommandInput) :
    decodeOperands cmdDecResp c =
      (bufOperand c.buf >>= fun buf => operand 8 c.sa >>= fun sa => operand 8 c.fc >>= fun fc =>
        operand 16 c.qty >>= fun qty => .ok (.decResp buf sa fc qty)) := rfl

theorem decodeOperands_parseReq (c : CommandInput) :
    decodeOperands cmdParseReq c = (bufOperand c.buf >>= fun buf => .ok (.parseReq buf)) := rfl

/-- A byte of the buffer operand that does not fit its width is rejected. -/
theorem operandBytes_of_wide {vs : List Nat} (h : ∃ v ∈ vs, 256 ≤ v) : operandBytes vs = .error .operandTooWide := by
  induction vs with
  | nil => simp at h
  | cons a vs ih =>
    simp only [operandBytes]
    rcases Nat.lt_or_ge a 256 with ha | ha
    · rw [operand_of_lt (w := 8) ha]
      have hvs : ∃ v ∈ vs, 256 ≤ v := by
        obtain ⟨v, hv, hb⟩ := h
        rcases List.mem_cons.1 hv with rfl | hm
        · omega
        · exact ⟨v, hm, hb⟩
      rw [ih hvs]
    · rw [operand_of_ge (w := 8) ha]

/-! ## A command is never rejected as a frame -/

theorem operand_ne_unrecognisedFrame (w v : Nat) (bs : List Byte) :
    operand w v ≠ .error (.unrecognisedFrame bs) := by
  unfold operand
  split <;> simp

theorem operandBytes_ne_unrecognisedFrame (vs : List Nat) (bs : List Byte) :
    operandBytes vs ≠ .error (.unrecognisedFrame bs) := by
  induction vs with
  | nil => simp [operandBytes]
  | cons v vs ih =>
    have hv := operand_ne_unrecognisedFrame 8 v bs
    unfold operandBytes
    split <;> simp_all

theorem bufOperand_ne_unrecognisedFrame (b : Option BufInput) (bs : List Byte) :
    bufOperand b ≠ .error (.unrecognisedFrame bs) := by
  unfold bufOperand
  split
  · simp
  · rename_i inp
    have h := operandBytes_ne_unrecognisedFrame (inp.bytes.take inp.len) bs
    split
    · simp
    · split <;> simp_all

theorem bind_ne_unrecognisedFrame {α β : Type} {x : Except DecodeError α} {k : α → Except DecodeError β}
    {bs : List Byte} (hx : x ≠ .error (.unrecognisedFrame bs)) (hk : ∀ a, k a ≠ .error (.unrecognisedFrame bs)) :
    (x >>= k) ≠ .error (.unrecognisedFrame bs) := by
  cases x with
  | error e => simpa using hx
  | ok a => exact hk a

/-- A command is never rejected as a frame. -/
theorem decodeCommand_ne_unrecognisedFrame (c : CommandInput) (bs : List Byte) :
    decodeCommand c ≠ .error (.unrecognisedFrame bs) := by
  unfold decodeCommand
  refine bind_ne_unrecognisedFrame (operand_ne_unrecognisedFrame _ _ _) fun cmd => ?_
  unfold decodeOperands
  repeat' split
  all_goals
    repeat' refine bind_ne_unrecognisedFrame ?_ fun _ => ?_
  all_goals
    first
    | exact operand_ne_unrecognisedFrame _ _ _
    | exact bufOperand_ne_unrecognisedFrame _ _
    | simp

end Sys2Proof
end

