-- ==== Sys2Proof/Laws/State.lean ====
section
/-!
SUPPORT. One lemma per field per state update: what it holds afterwards, tagged for simp, so that no later proof unfolds a
record update.
-/

namespace Sys2Proof.Machine

variable (s : State)

/-! ## fill -/

@[simp] theorem State.fill_crc (bytes : List Byte) : (s.fill bytes).crc = s.crc := rfl
@[simp] theorem State.fill_crcValid (bytes : List Byte) : (s.fill bytes).crcValid = s.crcValid := rfl
@[simp] theorem State.fill_faultMark (bytes : List Byte) : (s.fill bytes).faultMark = s.faultMark := rfl
@[simp] theorem State.fill_refusedMark (bytes : List Byte) : (s.fill bytes).refusedMark = s.refusedMark := rfl
@[simp] theorem State.fill_buf (bytes : List Byte) : (s.fill bytes).buf = s.buf.store bytes := rfl
@[simp] theorem State.fill_len (bytes : List Byte) : (s.fill bytes).len = bytes.length := rfl
@[simp] theorem State.fill_pending (bytes : List Byte) : (s.fill bytes).pending = s.pending := rfl
@[simp] theorem State.fill_results (bytes : List Byte) : (s.fill bytes).results = s.results := rfl

/-! ## setCrc -/

@[simp] theorem State.setCrc_crc (v : Half) : (s.setCrc v).crc = v := rfl
@[simp] theorem State.setCrc_crcValid (v : Half) : (s.setCrc v).crcValid = s.crcValid := rfl
@[simp] theorem State.setCrc_faultMark (v : Half) : (s.setCrc v).faultMark = s.faultMark := rfl
@[simp] theorem State.setCrc_refusedMark (v : Half) : (s.setCrc v).refusedMark = s.refusedMark := rfl
@[simp] theorem State.setCrc_buf (v : Half) : (s.setCrc v).buf = s.buf := rfl
@[simp] theorem State.setCrc_len (v : Half) : (s.setCrc v).len = s.len := rfl
@[simp] theorem State.setCrc_pending (v : Half) : (s.setCrc v).pending = s.pending := rfl
@[simp] theorem State.setCrc_results (v : Half) : (s.setCrc v).results = s.results := rfl

/-! ## setCrcValid -/

@[simp] theorem State.setCrcValid_crc (v : Bool) : (s.setCrcValid v).crc = s.crc := rfl
@[simp] theorem State.setCrcValid_crcValid (v : Bool) : (s.setCrcValid v).crcValid = v := rfl
@[simp] theorem State.setCrcValid_faultMark (v : Bool) : (s.setCrcValid v).faultMark = s.faultMark := rfl
@[simp] theorem State.setCrcValid_refusedMark (v : Bool) : (s.setCrcValid v).refusedMark = s.refusedMark := rfl
@[simp] theorem State.setCrcValid_buf (v : Bool) : (s.setCrcValid v).buf = s.buf := rfl
@[simp] theorem State.setCrcValid_len (v : Bool) : (s.setCrcValid v).len = s.len := rfl
@[simp] theorem State.setCrcValid_pending (v : Bool) : (s.setCrcValid v).pending = s.pending := rfl
@[simp] theorem State.setCrcValid_results (v : Bool) : (s.setCrcValid v).results = s.results := rfl

/-! ## emit -/

@[simp] theorem State.emit_crc (r : Result) : (s.emit r).crc = s.crc := rfl
@[simp] theorem State.emit_crcValid (r : Result) : (s.emit r).crcValid = s.crcValid := rfl
@[simp] theorem State.emit_faultMark (r : Result) : (s.emit r).faultMark = s.faultMark := rfl
@[simp] theorem State.emit_refusedMark (r : Result) : (s.emit r).refusedMark = s.refusedMark := rfl
@[simp] theorem State.emit_buf (r : Result) : (s.emit r).buf = s.buf := rfl
@[simp] theorem State.emit_len (r : Result) : (s.emit r).len = s.len := rfl
@[simp] theorem State.emit_pending (r : Result) : (s.emit r).pending = s.pending := rfl
@[simp] theorem State.emit_results (r : Result) : (s.emit r).results = s.results ++ [r] := rfl

/-! ## releaseFrame -/

@[simp] theorem State.releaseFrame_crc : (s.releaseFrame).crc = s.crc := rfl
@[simp] theorem State.releaseFrame_crcValid : (s.releaseFrame).crcValid = s.crcValid := rfl
@[simp] theorem State.releaseFrame_faultMark : (s.releaseFrame).faultMark = s.faultMark := rfl
@[simp] theorem State.releaseFrame_refusedMark : (s.releaseFrame).refusedMark = s.refusedMark := rfl
@[simp] theorem State.releaseFrame_buf : (s.releaseFrame).buf = [] := rfl
@[simp] theorem State.releaseFrame_len : (s.releaseFrame).len = 0 := rfl
@[simp] theorem State.releaseFrame_pending : (s.releaseFrame).pending = s.pending := rfl
@[simp] theorem State.releaseFrame_results : (s.releaseFrame).results = s.results := rfl

/-! ## applyReset -/

@[simp] theorem State.applyReset_crc : (s.applyReset).crc = Config.crcResetValue := rfl
@[simp] theorem State.applyReset_crcValid : (s.applyReset).crcValid = false := rfl
@[simp] theorem State.applyReset_faultMark : (s.applyReset).faultMark = s.faultMark := rfl
@[simp] theorem State.applyReset_refusedMark : (s.applyReset).refusedMark = s.refusedMark := rfl
@[simp] theorem State.applyReset_buf : (s.applyReset).buf = s.buf := rfl
@[simp] theorem State.applyReset_len : (s.applyReset).len = s.len := rfl
@[simp] theorem State.applyReset_pending : (s.applyReset).pending = s.pending := rfl
@[simp] theorem State.applyReset_results : (s.applyReset).results = s.results := rfl

/-! ## markFault -/

@[simp] theorem State.markFault_crc : (s.markFault).crc = s.crc := rfl
@[simp] theorem State.markFault_crcValid : (s.markFault).crcValid = s.crcValid := rfl
@[simp] theorem State.markFault_faultMark : (s.markFault).faultMark = true := rfl
@[simp] theorem State.markFault_refusedMark : (s.markFault).refusedMark = s.refusedMark := rfl
@[simp] theorem State.markFault_buf : (s.markFault).buf = s.buf := rfl
@[simp] theorem State.markFault_len : (s.markFault).len = s.len := rfl
@[simp] theorem State.markFault_pending : (s.markFault).pending = s.pending := rfl
@[simp] theorem State.markFault_results : (s.markFault).results = s.results := rfl

/-! ## markRefused -/

@[simp] theorem State.markRefused_crc : (s.markRefused).crc = s.crc := rfl
@[simp] theorem State.markRefused_crcValid : (s.markRefused).crcValid = s.crcValid := rfl
@[simp] theorem State.markRefused_faultMark : (s.markRefused).faultMark = s.faultMark := rfl
@[simp] theorem State.markRefused_refusedMark : (s.markRefused).refusedMark = true := rfl
@[simp] theorem State.markRefused_buf : (s.markRefused).buf = s.buf := rfl
@[simp] theorem State.markRefused_len : (s.markRefused).len = s.len := rfl
@[simp] theorem State.markRefused_pending : (s.markRefused).pending = s.pending := rfl
@[simp] theorem State.markRefused_results : (s.markRefused).results = s.results := rfl

/-! ## withPending -/

@[simp] theorem State.withPending_crc (rest : List HostInput) : (s.withPending rest).crc = s.crc := rfl
@[simp] theorem State.withPending_crcValid (rest : List HostInput) : (s.withPending rest).crcValid = s.crcValid := rfl
@[simp] theorem State.withPending_faultMark (rest : List HostInput) : (s.withPending rest).faultMark = s.faultMark := rfl
@[simp] theorem State.withPending_refusedMark (rest : List HostInput) : (s.withPending rest).refusedMark = s.refusedMark := rfl
@[simp] theorem State.withPending_buf (rest : List HostInput) : (s.withPending rest).buf = s.buf := rfl
@[simp] theorem State.withPending_len (rest : List HostInput) : (s.withPending rest).len = s.len := rfl
@[simp] theorem State.withPending_pending (rest : List HostInput) : (s.withPending rest).pending = rest := rfl
@[simp] theorem State.withPending_results (rest : List HostInput) : (s.withPending rest).results = s.results := rfl

/-! ## complete: a command's result, success or error, joins the results, and its frame is gone -/

@[simp] theorem State.complete_eq_emit (r : Result) : s.complete r = s.releaseFrame.emit r := by cases r <;> rfl

@[simp] theorem State.deliverError_eq_emit (r : Result) : s.deliverError r = s.emit r := rfl

/-! ## present: the frame operand -/

@[simp] theorem State.present_held : s.present .held = s := rfl
@[simp] theorem State.present_presented (bs : List Byte) : s.present (.presented bs) = s.fill bs := rfl
@[simp] theorem State.present_crc (buf : BufOperand) : (s.present buf).crc = s.crc := by cases buf <;> rfl
@[simp] theorem State.present_crcValid (buf : BufOperand) : (s.present buf).crcValid = s.crcValid := by cases buf <;> rfl
@[simp] theorem State.present_faultMark (buf : BufOperand) : (s.present buf).faultMark = s.faultMark := by cases buf <;> rfl
@[simp] theorem State.present_refusedMark (buf : BufOperand) : (s.present buf).refusedMark = s.refusedMark := by cases buf <;> rfl
@[simp] theorem State.present_pending (buf : BufOperand) : (s.present buf).pending = s.pending := by cases buf <;> rfl
@[simp] theorem State.present_results (buf : BufOperand) : (s.present buf).results = s.results := by cases buf <;> rfl

/-! ## The marks -/

@[simp] theorem State.marked_eq : s.marked = (s.faultMark || s.refusedMark) := rfl

/-! ## Updates of different fields do not see each other -/

@[simp] theorem State.setCrc_fill (v : Half) (bs : List Byte) : (s.setCrc v).fill bs = (s.fill bs).setCrc v := rfl
@[simp] theorem State.setCrc_emit (v : Half) (r : Result) : (s.setCrc v).emit r = (s.emit r).setCrc v := rfl
@[simp] theorem State.setCrc_setCrc (v w : Half) : (s.setCrc v).setCrc w = s.setCrc w := rfl
@[simp] theorem State.setCrc_present (v : Half) (buf : BufOperand) :
    (s.setCrc v).present buf = (s.present buf).setCrc v := by cases buf <;> rfl
@[simp] theorem State.setCrc_releaseFrame (v : Half) : (s.setCrc v).releaseFrame = s.releaseFrame.setCrc v := rfl
/-- Releasing forgets a frame, whichever way it was presented. -/
@[simp] theorem State.releaseFrame_fill (bs : List Byte) : (s.fill bs).releaseFrame = s.releaseFrame := rfl
@[simp] theorem State.releaseFrame_present (buf : BufOperand) : (s.present buf).releaseFrame = s.releaseFrame := by
  cases buf <;> rfl
@[simp] theorem State.releaseFrame_releaseFrame : s.releaseFrame.releaseFrame = s.releaseFrame := rfl
@[simp] theorem State.frame_releaseFrame : s.releaseFrame.frame = [] := rfl
@[simp] theorem State.frame_setCrc (v : Half) : (s.setCrc v).frame = s.frame := rfl
@[simp] theorem State.frame_emit (r : Result) : (s.emit r).frame = s.frame := rfl
@[simp] theorem State.frame_setCrcValid (v : Bool) : (s.setCrcValid v).frame = s.frame := rfl
@[simp] theorem State.frame_withPending (rest : List HostInput) : (s.withPending rest).frame = s.frame := rfl

end Sys2Proof.Machine
end

