-- ==== Sys2Proof/Laws/Memory.lean ====
section
/-!
SUPPORT. The frame input buffer: what a byte reads as after the host fills the buffer, and that filling keeps the canonical
form (R41).
-/

namespace Sys2Proof.Machine

/-! ## Reading -/

theorem Memory.read_append_of_lt (m m' : Memory) (a : Nat) (h : ∀ c ∈ m', a < c.1) :
    Memory.read (m ++ m') a = Memory.read m a := by
  induction m with
  | nil =>
    induction m' with
    | nil => rfl
    | cons c m' ih =>
      obtain ⟨k, v⟩ := c
      have hc : a < k := h (k, v) (by simp)
      have hr : Memory.read ((k, v) :: m') a = Memory.read m' a := by rw [Memory.read, if_neg (by omega)]
      rw [List.nil_append, hr]
      exact ih fun d hd => h d (by simp [hd])
  | cons c m ih => simp only [List.cons_append, Memory.read, ih]

theorem Memory.read_append_of_ge (m m' : Memory) (a : Nat) (h : ∀ c ∈ m, c.1 < a) :
    Memory.read (m ++ m') a = Memory.read m' a := by
  induction m with
  | nil => rfl
  | cons c m ih =>
    obtain ⟨k, v⟩ := c
    have hc : k < a := h (k, v) (by simp)
    rw [List.cons_append, Memory.read, if_neg (by omega)]
    exact ih fun d hd => h d (by simp [hd])

theorem Memory.ofBytesFrom_index (k : Nat) (bs : List Byte) :
    ∀ c ∈ Memory.ofBytesFrom k bs, k ≤ c.1 ∧ c.1 < k + bs.length := by
  induction bs generalizing k with
  | nil => simp [Memory.ofBytesFrom]
  | cons b bs ih =>
    intro c hc
    simp only [Memory.ofBytesFrom, List.length_cons] at hc ⊢
    split at hc
    · have := ih _ _ hc
      omega
    · rcases List.mem_cons.1 hc with rfl | hc
      · simp
      · have := ih _ _ hc
        omega

theorem Memory.keepFrom_index (n : Nat) (m : Memory) : ∀ c ∈ Memory.keepFrom n m, n ≤ c.1 := by
  induction m with
  | nil => simp [Memory.keepFrom]
  | cons d m ih =>
    intro c hc
    simp only [Memory.keepFrom] at hc
    split at hc
    · rcases List.mem_cons.1 hc with rfl | hc
      · assumption
      · exact ih _ hc
    · exact ih _ hc

theorem Memory.read_keepFrom (n : Nat) (m : Memory) (a : Nat) (h : n ≤ a) :
    Memory.read (Memory.keepFrom n m) a = Memory.read m a := by
  induction m with
  | nil => rfl
  | cons c m ih =>
    simp only [Memory.keepFrom, Memory.read]
    split
    · simp only [Memory.read, ih]
    · rw [if_neg (by omega), ih]

theorem Memory.read_ofBytesFrom (k : Nat) (bs : List Byte) (a : Nat) :
    Memory.read (Memory.ofBytesFrom k bs) (k + a) = bs.getD a Config.unfilledByte := by
  induction bs generalizing k a with
  | nil => simp [Memory.ofBytesFrom, Memory.read]
  | cons b bs ih =>
    simp only [Memory.ofBytesFrom]
    cases a with
    | zero =>
      split
      · have hne := Memory.read_append_of_lt [] (Memory.ofBytesFrom (k + 1) bs) k
          (fun c hc => (Memory.ofBytesFrom_index _ _ c hc).1)
        simp_all [Memory.read]
      · simp [Memory.read]
    | succ a =>
      have := ih (k + 1) a
      rw [show k + 1 + a = k + (a + 1) by omega] at this
      split
      · simpa using this
      · rw [Memory.read, if_neg (by omega)]
        simpa using this

/-- A byte the host stores reads back. -/
theorem Memory.read_store_stored (m : Memory) (bs : List Byte) (a : Nat) (h : a < bs.length) :
    Memory.read (m.store bs) a = bs[a] := by
  rw [Memory.store, Memory.read_append_of_lt]
  · have := Memory.read_ofBytesFrom 0 bs a
    simpa [List.getD_eq_getElem?_getD, h] using this
  · intro c hc
    have := Memory.keepFrom_index _ _ c hc
    omega

/-- Every other byte stays as it was. -/
theorem Memory.read_store_other (m : Memory) (bs : List Byte) (a : Nat) (h : bs.length ≤ a) :
    Memory.read (m.store bs) a = Memory.read m a := by
  rw [Memory.store, Memory.read_append_of_ge, Memory.read_keepFrom _ _ _ h]
  intro c hc
  have := Memory.ofBytesFrom_index _ _ c hc
  omega

/-! ## The canonical form -/

theorem Memory.wfFrom_mono {lo lo' : Nat} (h : lo ≤ lo') (m : Memory) (hm : Memory.wfFrom lo' m = true) :
    Memory.wfFrom lo m = true := by
  cases m with
  | nil => rfl
  | cons c m =>
    simp only [Memory.wfFrom, Bool.and_eq_true, decide_eq_true_eq] at hm ⊢
    exact ⟨⟨⟨by omega, hm.1.1.2⟩, hm.1.2⟩, hm.2⟩

theorem Memory.wfFrom_keepFrom {lo n : Nat} (m : Memory) (hm : Memory.wfFrom lo m = true) :
    Memory.wfFrom (max lo n) (Memory.keepFrom n m) = true := by
  induction m generalizing lo with
  | nil => rfl
  | cons c m ih =>
    simp only [Memory.wfFrom, Bool.and_eq_true, decide_eq_true_eq] at hm
    simp only [Memory.keepFrom]
    split
    · rename_i hn
      simp only [Memory.wfFrom, Bool.and_eq_true, decide_eq_true_eq]
      have h := ih hm.2
      rw [show max (c.1 + 1) n = c.1 + 1 by omega] at h
      exact ⟨⟨⟨by omega, hm.1.1.2⟩, hm.1.2⟩, h⟩
    · rename_i hn
      have h := ih hm.2
      exact Memory.wfFrom_mono (by omega) _ h

theorem Memory.wfFrom_ofBytesFrom_append (k : Nat) (bs : List Byte) (m : Memory)
    (hk : k + bs.length ≤ Config.frameBufBytes) (hm : Memory.wfFrom (k + bs.length) m = true) :
    Memory.wfFrom k (Memory.ofBytesFrom k bs ++ m) = true := by
  induction bs generalizing k with
  | nil => simpa [Memory.ofBytesFrom] using hm
  | cons b bs ih =>
    simp only [List.length_cons] at hk hm
    have h := ih (k + 1) (by omega) (by rwa [show k + 1 + bs.length = k + (bs.length + 1) by omega])
    simp only [Memory.ofBytesFrom]
    split
    · exact Memory.wfFrom_mono (by omega) _ h
    · rename_i hb
      simp only [List.cons_append, Memory.wfFrom, Bool.and_eq_true, decide_eq_true_eq, bne_iff_ne]
      exact ⟨⟨⟨le_refl k, by omega⟩, hb⟩, h⟩

/-- Filling the buffer keeps its canonical form. -/
theorem Memory.wf_store (m : Memory) (bs : List Byte) (hm : m.wf = true)
    (hb : bs.length ≤ Config.frameBufBytes) : (m.store bs).wf = true := by
  refine Memory.wfFrom_ofBytesFrom_append 0 bs _ (by omega) ?_
  have h := Memory.wfFrom_keepFrom (n := bs.length) m hm
  simpa using h

/-! ## The buffer in the state -/

/-- The frame the host fills the buffer with is the frame a command finds. -/
@[simp] theorem State.frame_fill (s : State) (bs : List Byte) : (s.fill bs).frame = bs := by
  apply List.ext_getElem
  · simp [State.frame]
  · intro i h1 h2
    simp only [State.frame, State.bufRead, State.fill_buf, List.getElem_map, List.getElem_range]
    exact Memory.read_store_stored _ _ _ h2

@[simp] theorem State.length_frame (s : State) : s.frame.length = s.len := by simp [State.frame]

/-- `BufRead(i)` is byte `i` of the frame, for `i < len` (R12, R41). -/
theorem State.frame_getElem (s : State) (i : Nat) (h : i < s.frame.length) : s.frame[i] = s.bufRead i := by
  simp [State.frame]

theorem State.bufferOk_fill {s : State} (bs : List Byte) (hs : BufferOk s)
    (hb : bs.length ≤ Config.frameBufBytes) : BufferOk (s.fill bs) :=
  ⟨Memory.wf_store _ _ hs.1 hb, hb⟩

theorem State.bufferOk_releaseFrame (s : State) : BufferOk s.releaseFrame := ⟨rfl, Nat.zero_le _⟩

end Sys2Proof.Machine
end

