-- ==== Sys2Proof/Laws/Ops.lean ====
section
/-!
SUPPORT. For each shared operation of the machine, one lemma that says everything it can do, and the basic laws of the CRC
fold; later proofs cite these.
-/

namespace Sys2Proof.Machine

/-! ## Bytes of 16-bit values -/

@[simp] theorem lo_be16 (h l : Byte) : lo (be16 h l) = l := by
  apply BitVec.eq_of_getElem_eq
  intro i hi
  simp [lo, be16, zext16, BitVec.getElem_extractLsb', BitVec.getLsbD_setWidth, hi]
  exact fun _ => by omega

@[simp] theorem hi_be16 (h l : Byte) : hi (be16 h l) = h := by
  apply BitVec.eq_of_getElem_eq
  intro i hlt
  simp [hi, be16, zext16, BitVec.getElem_extractLsb', BitVec.getLsbD_setWidth, hlt]
  simp [show 8 + i < 16 by omega, show i < 16 by omega]

@[simp] theorem be16_hi_lo (w : Half) : be16 (hi w) (lo w) = w := by
  apply BitVec.eq_of_getElem_eq
  intro i hlt
  simp [hi, lo, be16, zext16, BitVec.getLsbD_extractLsb', BitVec.getElem_setWidth]
  rcases Nat.lt_or_ge i 8 with h | h
  · simp [h, BitVec.getLsbD_eq_getElem hlt]
  · simp [Nat.not_lt.2 h, show i - 8 < 8 by omega, show 8 + (i - 8) = i by omega, BitVec.getLsbD_eq_getElem hlt]

@[simp] theorem length_wordBytes (ws : List Half) : (wordBytes ws).length = 2 * ws.length := by
  induction ws with
  | nil => rfl
  | cons w ws ih => simp only [wordBytes, List.length_cons, ih]; omega

@[simp] theorem pairWords_wordBytes (ws : List Half) : pairWords (wordBytes ws) = ws := by
  induction ws with
  | nil => rfl
  | cons w ws ih => simp [wordBytes, pairWords, ih]

@[simp] theorem length_bigEndian (w : Half) : (bigEndian w).length = 2 := rfl
@[simp] theorem length_littleEndian (w : Half) : (littleEndian w).length = 2 := rfl
@[simp] theorem length_reqBody (sa fc : Byte) (ra q : Half) : (reqBody sa fc ra q).length = 6 := rfl
@[simp] theorem length_excBodyRaw (sa f e : Byte) : (excBodyRaw sa f e).length = 3 := rfl

@[simp] theorem length_respBody (sa fc : Byte) (ws : List Half) :
    (respBody sa fc ws).length = 3 + 2 * ws.length := by
  simp [respBody]; omega

@[simp] theorem length_withCrc (body : List Byte) : (withCrc body).length = body.length + 2 := by
  simp [withCrc]

/-! ## The CRC fold -/

@[simp] theorem crcFold_nil (c : Half) : crcFold c [] = c := rfl

@[simp] theorem crcFold_cons (c : Half) (b : Byte) (s : List Byte) :
    crcFold c (b :: s) = crcFold (crcStep c b) s := rfl

theorem crcFold_append (c : Half) (s t : List Byte) : crcFold c (s ++ t) = crcFold (crcFold c s) t := by
  simp [crcFold, List.foldl_append]

theorem crc16_eq_fold (s : List Byte) : crc16 s = crcFold Config.crcInitValue s := by
  simp [crc16, Config.crcXorOut]

/-! ## Field access of a list given as a body and a tail -/

theorem byteAt_append_right (f g : List Byte) (i : Nat) : byteAt (f ++ g) (f.length + i) = byteAt g i := by
  simp [byteAt, List.getD_eq_getElem?_getD, List.getElem?_append_right]

theorem byteAt_append_left (f g : List Byte) (i : Nat) (h : i < f.length) : byteAt (f ++ g) i = byteAt f i := by
  simp [byteAt, List.getD_eq_getElem?_getD, List.getElem?_append_left h]

/-- The CRC field of a frame is its last two bytes, low byte first (R43, R63). -/
theorem receivedCrc_append (body : List Byte) (c : Half) : receivedCrc (body ++ littleEndian c) = c := by
  have h0 : byteAt (body ++ littleEndian c) body.length = lo c := by simp [byteAt, littleEndian]
  have h1 : byteAt (body ++ littleEndian c) (body.length + 1) = hi c := by simp [byteAt, littleEndian]
  simp [receivedCrc, h0, h1]

/-- `CrcOk` of a body followed by a CRC field says that the field is the body's CRC (R63). -/
theorem crcOk_append (body : List Byte) (c : Half) :
    crcOk (body ++ littleEndian c) = decide (crc16 body = c) := by
  simp [crcOk, receivedCrc_append]

@[simp] theorem crcOk_withCrc (body : List Byte) : crcOk (withCrc body) = true := by
  simp [withCrc, crcOk_append]

/-! ## Shared operations of the meanings -/

/-- A command that needs a valid CRC faults without one and goes on with it otherwise. -/
theorem withValidCrc_eq (s : State) (k : Half → Host.Outcome State Fault Refusal) :
    withValidCrc s k = if s.crcValid = true then k s.crc else .fault .crcNotInitialised := rfl

/-- Handing over a frame that fits fills the buffer and does nothing else. -/
theorem handFrame_next {s : State} {bs : List Byte} (h : bs.length ≤ Config.frameBufBytes) :
    s.handFrame bs = .next (s.fill bs) := by
  simp [State.handFrame, Nat.not_lt.2 h]

/-- All that handing over a frame can do. -/
theorem handFrame_cases {s t : State} {bs : List Byte} (h : s.handFrame bs = .next t) :
    bs.length ≤ Config.frameBufBytes ∧ t = s.fill bs := by
  unfold State.handFrame at h
  split at h
  · cases h
  · cases h
    exact ⟨by omega, rfl⟩

/-- A frame operand that fits is presented; the computation goes on in the state that presents it. -/
theorem withFrameOperand_of_le {buf : BufOperand} {s : State} (k : State → Host.Outcome State Fault Refusal)
    (h : (s.present buf).len ≤ Config.frameBufBytes) : withFrameOperand buf s k = k (s.present buf) := by
  simp [withFrameOperand, Nat.not_lt.2 h]

/-- All that a computation with a frame operand can do when it answers a next state. -/
theorem withFrameOperand_cases {buf : BufOperand} {s t : State} {k : State → Host.Outcome State Fault Refusal}
    (h : withFrameOperand buf s k = .next t) :
    (s.present buf).len ≤ Config.frameBufBytes ∧ k (s.present buf) = .next t := by
  unfold withFrameOperand at h
  split at h
  · cases h
  · exact ⟨by omega, h⟩

/-- Frame rows are at most as long as their layouts say. -/
theorem length_frameBytes_response (sa : Byte) (ws : List Half) (c : Half) :
    (frameBytes (.frameReadResponseFc3 sa ws c)).length = 5 + 2 * ws.length ∧
      (frameBytes (.frameReadResponseFc4 sa ws c)).length = 5 + 2 * ws.length := by
  constructor <;> simp [frameBytes] <;> omega

/-! ## The step -/

theorem step_marked {s : State} (h : s.marked = true) : step s = .fault .runEnded := by
  rw [step, if_pos h]

theorem step_idle {s : State} (h : s.marked = false) (hp : s.pending = []) : step s = .next s := by
  rw [step, if_neg (by rw [h]; decide), hp]

theorem step_reset {s : State} {rest : List HostInput} (h : s.marked = false) (hp : s.pending = .reset :: rest) :
    step s = .next (s.withPending rest).applyReset := by
  rw [step, if_neg (by rw [h]; decide), hp]

theorem step_present {s : State} {e : Encoded} {rest : List HostInput} (h : s.marked = false)
    (hp : s.pending = .present e :: rest) : step s = accept e (s.withPending rest) := by
  rw [step, if_neg (by rw [h]; decide), hp]

/-- All that a step can do when it answers a next state. -/
theorem step_cases {s t : State} (h : step s = .next t) :
    s.marked = false ∧
      ((s.pending = [] ∧ t = s) ∨
        (∃ rest, s.pending = .reset :: rest ∧ t = (s.withPending rest).applyReset) ∨
        (∃ e rest i, s.pending = .present e :: rest ∧ decode e = .ok i ∧ exec i (s.withPending rest) = .next t) ∨
        (∃ fmt bytes rest, s.pending = .present (.frame fmt bytes) :: rest ∧ decodeFrame fmt bytes = none ∧
          (s.withPending rest).handFrame bytes = .next t)) := by
  unfold step at h
  split at h
  · cases h
  · rename_i hm
    refine ⟨by simpa using hm, ?_⟩
    split at h
    · rename_i hp
      cases h
      exact .inl ⟨hp, rfl⟩
    · rename_i rest hp
      cases h
      exact .inr (.inl ⟨rest, hp, rfl⟩)
    · rename_i e rest hp
      unfold accept at h
      split at h
      · rename_i i hd
        exact .inr (.inr (.inl ⟨e, rest, i, hp, hd, h⟩))
      · rename_i err hd
        cases err with
        | operandTooWide => cases h
        | frameTooLong => cases h
        | unrecognisedFrame bytes =>
          cases e with
          | command c => exact absurd hd (decodeCommand_ne_unrecognisedFrame c _)
          | frame fmt bs =>
            simp only [decode] at hd
            split at hd
            · cases hd
            · rename_i hn
              cases hd
              exact .inr (.inr (.inr ⟨fmt, _, rest, hp, hn, h⟩))

end Sys2Proof.Machine
end

