-- ==== Sys2Proof/Laws/Exec.lean ====
section
/-!
SUPPORT. What each meaning does: one equation or one inversion lemma per instruction, which later proofs cite instead of
unfolding `exec`.
-/

namespace Sys2Proof.Machine

/-! ## The operand checks in the words of the rules -/

theorem supportedFunction_iff (fc : Byte) : supportedFunction fc = true ↔ fc = 0x03#8 ∨ fc = 0x04#8 := by
  simp [supportedFunction]

theorem quantityInRange_iff (q : Half) : quantityInRange q = true ↔ 1 ≤ q.toNat ∧ q.toNat ≤ 125 := by
  simp [quantityInRange]

/-! ## The CRC commands -/

theorem exec_crcInit (s : State) :
    exec .crcInit s = .next (((s.releaseFrame.setCrc Config.crcInitValue).setCrcValid true).emit (.ok .none)) := rfl

theorem exec_crcUpdate_valid {s : State} (b : Byte) (h : s.crcValid = true) :
    exec (.crcUpdate b) s = .next ((s.releaseFrame.setCrc (crcStep s.crc b)).emit (.ok .none)) := by
  simp [exec, execCrcUpdate, withValidCrc, h]

theorem exec_crcUpdate_invalid {s : State} (b : Byte) (h : s.crcValid = false) :
    exec (.crcUpdate b) s = .fault .crcNotInitialised := by
  simp [exec, execCrcUpdate, withValidCrc, h]

theorem exec_crcRead_valid {s : State} (h : s.crcValid = true) :
    exec .crcRead s = .next (s.releaseFrame.emit (.ok (.crc s.crc))) := by
  simp [exec, execCrcRead, withValidCrc, h]

theorem exec_crcRead_invalid {s : State} (h : s.crcValid = false) : exec .crcRead s = .fault .crcNotInitialised := by
  simp [exec, execCrcRead, withValidCrc, h]

/-- All that CRC_UPDATE can do when it answers a next state. -/
theorem exec_crcUpdate_cases {b : Byte} {s t : State} (h : exec (.crcUpdate b) s = .next t) :
    s.crcValid = true ∧ t = (s.releaseFrame.setCrc (crcStep s.crc b)).emit (.ok .none) := by
  cases hv : s.crcValid with
  | false => rw [exec_crcUpdate_invalid b hv] at h; cases h
  | true => rw [exec_crcUpdate_valid b hv] at h; cases h; exact ⟨rfl, rfl⟩

/-- All that CRC_READ can do when it answers a next state. -/
theorem exec_crcRead_cases {s t : State} (h : exec .crcRead s = .next t) :
    s.crcValid = true ∧ t = s.releaseFrame.emit (.ok (.crc s.crc)) := by
  cases hv : s.crcValid with
  | false => rw [exec_crcRead_invalid hv] at h; cases h
  | true => rw [exec_crcRead_valid hv] at h; cases h; exact ⟨rfl, rfl⟩

/-! ## ENC_REQ -/

theorem exec_encReq (sa fc : Byte) (ra q : Half) (s : State) :
    exec (.encReq sa fc ra q) s =
      if supportedFunction fc then .next (s.releaseFrame.emit (encReqResult sa fc ra q))
      else .refused .unsupportedFunction := by
  simp [exec, execEncReq]

/-- All that ENC_REQ can do when it answers a next state. -/
theorem exec_encReq_cases {sa fc : Byte} {ra q : Half} {s t : State} (h : exec (.encReq sa fc ra q) s = .next t) :
    supportedFunction fc = true ∧ t = s.releaseFrame.emit (encReqResult sa fc ra q) := by
  rw [exec_encReq] at h
  split at h
  · cases h; exact ⟨‹_›, rfl⟩
  · cases h

/-! ## DEC_RESP and PARSE_REQ -/

/-- DEC_RESP with operands it does not refuse. -/
theorem exec_decResp {buf : BufOperand} {fc : Byte} {q : Half} {s : State} (sa : Byte)
    (hl : (s.present buf).len ≤ Config.frameBufBytes) (hf : supportedFunction fc = true)
    (hq : quantityInRange q = true) :
    exec (.decResp buf sa fc q) s =
      .next (s.releaseFrame.emit (decRespResult Config.excMatch (s.present buf).frame sa fc q)) := by
  simp only [exec, execDecResp]
  rw [withFrameOperand_of_le _ hl]
  simp [hf, hq]

/-- All that DEC_RESP can do when it answers a next state. -/
theorem exec_decResp_cases {buf : BufOperand} {sa fc : Byte} {q : Half} {s t : State}
    (h : exec (.decResp buf sa fc q) s = .next t) :
    (s.present buf).len ≤ Config.frameBufBytes ∧ supportedFunction fc = true ∧ quantityInRange q = true ∧
      t = s.releaseFrame.emit (decRespResult Config.excMatch (s.present buf).frame sa fc q) := by
  simp only [exec, execDecResp] at h
  obtain ⟨hl, hk⟩ := withFrameOperand_cases h
  split at hk
  · cases hk
  · split at hk
    · cases hk
    · cases hk
      exact ⟨hl, by simpa using ‹¬(!supportedFunction fc) = true›, by simpa using ‹¬(!quantityInRange q) = true›,
        by simp⟩

/-- PARSE_REQ with a frame that fits the buffer. -/
theorem exec_parseReq {buf : BufOperand} {s : State} (hl : (s.present buf).len ≤ Config.frameBufBytes) :
    exec (.parseReq buf) s = .next (s.releaseFrame.emit (parseReqResult (s.present buf).frame)) := by
  simp only [exec, execParseReq]
  rw [withFrameOperand_of_le _ hl]
  simp

/-- All that PARSE_REQ can do when it answers a next state. -/
theorem exec_parseReq_cases {buf : BufOperand} {s t : State} (h : exec (.parseReq buf) s = .next t) :
    (s.present buf).len ≤ Config.frameBufBytes ∧
      t = s.releaseFrame.emit (parseReqResult (s.present buf).frame) := by
  simp only [exec, execParseReq] at h
  obtain ⟨hl, hk⟩ := withFrameOperand_cases h
  cases hk
  exact ⟨hl, by simp⟩

/-- The kinds of result DEC_RESP returns, and what an exception result says of the frame. -/
theorem decRespResult_cases (m : ExcMatch) (f : List Byte) (sa fc : Byte) (q : Half) :
    (∃ e, decRespResult m f sa fc q = .frameError e ∧ e ≠ .quantityOutOfRange) ∨
      (decRespResult m f sa fc q = .deviceExceptionError (byteAt f 2) ∧ f.length = Config.excLen ∧ crcOk f = true ∧
        byteAt f 0 = sa ∧ (byteAt f 1).msb = true ∧ recognisedException m fc (byteAt f 1) = true) ∨
      (decRespResult m f sa fc q = .ok (.words ((List.range q.toNat).map (frameWord f))) ∧ crcOk f = true ∧
        byteAt f 0 = sa ∧ byteAt f 1 = fc ∧ (byteAt f 2).toNat = 2 * q.toNat ∧ f.length = 5 + 2 * q.toNat) := by
  generalize hr : decRespResult m f sa fc q = r
  unfold decRespResult exceptionResult responseDataResult at hr
  repeat' split at hr
  all_goals subst hr
  all_goals simp_all

/-- The kinds of result PARSE_REQ returns, and what an accepted frame holds. -/
theorem parseReqResult_cases (f : List Byte) :
    (∃ e, parseReqResult f = .frameError e ∧ e ≠ .addressMismatch ∧ e ≠ .byteCountMismatch) ∨
      (parseReqResult f = .ok (.fields (byteAt f 0) (byteAt f 1) (frameRegAddr f) (frameQuantity f)) ∧
        f.length = Config.reqLen ∧ crcOk f = true ∧ supportedFunction (byteAt f 1) = true ∧
        quantityInRange (frameQuantity f) = true) := by
  generalize hr : parseReqResult f = r
  unfold parseReqResult at hr
  repeat' split at hr
  all_goals subst hr
  all_goals simp_all

/-! ## RESERVED and the frame rows -/

theorem exec_reserved (cmd : Byte) (s : State) : exec (.reserved cmd) s = .refused .reservedCommand := rfl

theorem exec_frameReadRequestFc3 (sa : Byte) (ra q c : Half) (s : State) :
    exec (.frameReadRequestFc3 sa ra q c) s = s.handFrame (frameBytes (.frameReadRequestFc3 sa ra q c)) := rfl

theorem exec_frameReadRequestFc4 (sa : Byte) (ra q c : Half) (s : State) :
    exec (.frameReadRequestFc4 sa ra q c) s = s.handFrame (frameBytes (.frameReadRequestFc4 sa ra q c)) := rfl

theorem exec_frameReadResponseFc3 (sa : Byte) (ws : List Half) (c : Half) (s : State) :
    exec (.frameReadResponseFc3 sa ws c) s = s.handFrame (frameBytes (.frameReadResponseFc3 sa ws c)) := rfl

theorem exec_frameReadResponseFc4 (sa : Byte) (ws : List Half) (c : Half) (s : State) :
    exec (.frameReadResponseFc4 sa ws c) s = s.handFrame (frameBytes (.frameReadResponseFc4 sa ws c)) := rfl

theorem exec_frameExceptionFc3 (sa e : Byte) (c : Half) (s : State) :
    exec (.frameExceptionFc3 sa e c) s = s.handFrame (frameBytes (.frameExceptionFc3 sa e c)) := rfl

theorem exec_frameExceptionFc4 (sa e : Byte) (c : Half) (s : State) :
    exec (.frameExceptionFc4 sa e c) s = s.handFrame (frameBytes (.frameExceptionFc4 sa e c)) := rfl

theorem exec_frameExceptionAnyBit7 (sa f e : Byte) (c : Half) (s : State) :
    exec (.frameExceptionAnyBit7 sa f e c) s = s.handFrame (frameBytes (.frameExceptionAnyBit7 sa f e c)) := rfl

/-- A frame row hands the block its bytes; only a command has none. -/
theorem exec_frameRow (i : Instr) (s : State) (h : frameBytes i ≠ []) : exec i s = s.handFrame (frameBytes i) := by
  cases i <;> first | rfl | exact absurd rfl h

/-- All that a frame row can do when it answers a next state. -/
theorem exec_frameRow_cases {i : Instr} {s t : State} (hb : frameBytes i ≠ []) (h : exec i s = .next t) :
    (frameBytes i).length ≤ Config.frameBufBytes ∧ t = s.fill (frameBytes i) :=
  handFrame_cases (exec_frameRow i s hb ▸ h)

/-! ## Every command, and the frame it is presented with -/

/-- All that a command (an instruction that hands over no frame) can do when it answers a next state: the frame presented
with it is gone, one result joins, `crc_valid` changes only by CRC_INIT, `crc` only by CRC_INIT and CRC_UPDATE, and neither
when the result is an error. -/
theorem exec_command_cases {i : Instr} {s t : State} (hi : frameBytes i = []) (h : exec i s = .next t) :
    ∃ (c : Half) (v : Bool) (r : Result), t = ((s.releaseFrame.setCrc c).setCrcValid v).emit r ∧
      (i ≠ .crcInit → v = s.crcValid) ∧ (i ≠ .crcInit → (∀ b, i ≠ .crcUpdate b) → c = s.crc) ∧
      (r.status ≠ 0#2 → c = s.crc ∧ v = s.crcValid) := by
  cases i with
  | crcInit =>
    rw [exec_crcInit] at h
    cases h
    exact ⟨_, _, _, rfl, by simp, by simp, by simp [Result.status]⟩
  | crcUpdate b =>
    obtain ⟨hv, rfl⟩ := exec_crcUpdate_cases h
    exact ⟨_, s.crcValid, _, rfl, by simp, by simp, by simp [Result.status]⟩
  | crcRead =>
    obtain ⟨hv, rfl⟩ := exec_crcRead_cases h
    exact ⟨s.crc, s.crcValid, _, rfl, by simp, by simp, by simp⟩
  | encReq =>
    obtain ⟨hv, rfl⟩ := exec_encReq_cases h
    exact ⟨s.crc, s.crcValid, _, rfl, by simp, by simp, by simp⟩
  | decResp =>
    obtain ⟨_, _, hv, rfl⟩ := exec_decResp_cases h
    exact ⟨s.crc, s.crcValid, _, rfl, by simp, by simp, by simp⟩
  | parseReq =>
    obtain ⟨hv, rfl⟩ := exec_parseReq_cases h
    exact ⟨s.crc, s.crcValid, _, rfl, by simp, by simp, by simp⟩
  | reserved => cases h
  | _ => simp [frameBytes, reqBody, respBody, excBodyRaw] at hi

/-- DEC_RESP depends on the buffer through the frame presented with it, and on nothing of the buffer afterwards. -/
theorem exec_decResp_congr {b b' : BufOperand} {s s' : State} (sa fc : Byte) (q : Half)
    (hf : (s.present b).frame = (s'.present b').frame) (hr : s.releaseFrame = s'.releaseFrame) :
    exec (.decResp b sa fc q) s = exec (.decResp b' sa fc q) s' := by
  have hl : (s.present b).len = (s'.present b').len := by
    rw [← State.length_frame, hf, State.length_frame]
  simp [exec, execDecResp, withFrameOperand, hl, hf, hr]

/-- PARSE_REQ likewise. -/
theorem exec_parseReq_congr {b b' : BufOperand} {s s' : State}
    (hf : (s.present b).frame = (s'.present b').frame) (hr : s.releaseFrame = s'.releaseFrame) :
    exec (.parseReq b) s = exec (.parseReq b') s' := by
  have hl : (s.present b).len = (s'.present b').len := by
    rw [← State.length_frame, hf, State.length_frame]
  simp [exec, execParseReq, withFrameOperand, hl, hf, hr]

end Sys2Proof.Machine
end

