-- ==== Sys2Proof/Laws/PerInstr.lean ====
section
/-!
SUPPORT. Per-instruction laws. `RowSelect`: the encoding of every well-formed instruction has the format of its row of
spec/opcode_table.json, and the byte that selects a row (the command word, or byte 1 of a frame) matches that row's match
value under its mask; a reserved command word matches no other row of format `cmd`.
-/

namespace Sys2Proof.Laws.RowSelect

/-- The encoding of `i` is selected by its row. -/
def Statement (i : Instr) : Prop :=
  i.wf = true →
    (encode i).format = i.row.format ∧ (encode i).selector < 256 ∧
      BitVec.ofNat 8 (encode i).selector &&& i.row.mask = i.row.value

/-- The selecting byte of a command is its command word. -/
theorem word_select {v m w : Byte} (hm : v &&& m = w) : v.toNat < 256 ∧ BitVec.ofNat 8 v.toNat &&& m = w := by
  rw [BitVec.ofNat_toNat, BitVec.setWidth_eq]
  exact ⟨v.isLt, hm⟩

/-- The selecting byte of a frame is byte 1 of its layout. -/
theorem frame_select {bs : List Byte} {v m w : Byte} (h : bs.getD 1 0#8 = v) (hm : v &&& m = w) :
    (bs.getD 1 0#8).toNat < 256 ∧ BitVec.ofNat 8 (bs.getD 1 0#8).toNat &&& m = w := by
  rw [h]
  exact word_select hm

theorem crcInit : Statement .crcInit := fun _ => by decide

theorem crcUpdate (b : Byte) : Statement (.crcUpdate b) := fun _ => ⟨rfl, word_select (v := 0x02#8) (m := 0xFF#8) (w := 0x02#8) (by decide)⟩

theorem crcRead : Statement .crcRead := fun _ => by decide

theorem encReq (sa fc : Byte) (ra qty : Half) : Statement (.encReq sa fc ra qty) :=
  fun _ => ⟨rfl, word_select (v := 0x10#8) (m := 0xFF#8) (w := 0x10#8) (by decide)⟩

theorem decResp (buf : BufOperand) (sa fc : Byte) (qty : Half) : Statement (.decResp buf sa fc qty) :=
  fun _ => ⟨rfl, word_select (v := 0x20#8) (m := 0xFF#8) (w := 0x20#8) (by decide)⟩

theorem parseReq (buf : BufOperand) : Statement (.parseReq buf) := fun _ => ⟨rfl, word_select (v := 0x21#8) (m := 0xFF#8) (w := 0x21#8) (by decide)⟩

theorem reserved (cmd : Byte) : Statement (.reserved cmd) :=
  fun _ => ⟨rfl, cmd.isLt, BitVec.and_zero⟩

theorem frameReadRequestFc3 (sa : Byte) (ra qty crc : Half) : Statement (.frameReadRequestFc3 sa ra qty crc) :=
  fun _ => ⟨rfl, frame_select (v := 0x03#8) (m := 0xFF#8) (w := 0x03#8) rfl (by decide)⟩

theorem frameReadRequestFc4 (sa : Byte) (ra qty crc : Half) : Statement (.frameReadRequestFc4 sa ra qty crc) :=
  fun _ => ⟨rfl, frame_select (v := 0x04#8) (m := 0xFF#8) (w := 0x04#8) rfl (by decide)⟩

theorem frameReadResponseFc3 (sa : Byte) (ws : List Half) (crc : Half) :
    Statement (.frameReadResponseFc3 sa ws crc) :=
  fun _ => ⟨rfl, frame_select (v := 0x03#8) (m := 0xFF#8) (w := 0x03#8) rfl (by decide)⟩

theorem frameReadResponseFc4 (sa : Byte) (ws : List Half) (crc : Half) :
    Statement (.frameReadResponseFc4 sa ws crc) :=
  fun _ => ⟨rfl, frame_select (v := 0x04#8) (m := 0xFF#8) (w := 0x04#8) rfl (by decide)⟩

theorem frameExceptionFc3 (sa code : Byte) (crc : Half) : Statement (.frameExceptionFc3 sa code crc) :=
  fun _ => ⟨rfl, frame_select (v := 0x83#8) (m := 0xFF#8) (w := 0x83#8) rfl (by decide)⟩

theorem frameExceptionFc4 (sa code : Byte) (crc : Half) : Statement (.frameExceptionFc4 sa code crc) :=
  fun _ => ⟨rfl, frame_select (v := 0x84#8) (m := 0xFF#8) (w := 0x84#8) rfl (by decide)⟩

/-- A byte with bit 7 set matches the row `0x80` under the mask `0x80`. -/
theorem and_excFlag_of_msb (f : Byte) (h : f.msb = true) : f &&& 0x80#8 = 0x80#8 := by
  revert f
  decide +kernel

theorem frameExceptionAnyBit7 (sa fc code : Byte) (crc : Half) :
    Statement (.frameExceptionAnyBit7 sa fc code crc) := by
  intro h
  simp only [Instr.wf, otherExceptionCode, Bool.and_eq_true] at h
  exact ⟨rfl, frame_select (v := fc) rfl (and_excFlag_of_msb fc h.1.1)⟩

end Sys2Proof.Laws.RowSelect
end

