-- ==== Sys2Proof/Tests/Slice0.lean ====
section
/-!
SUPPORT. The model's own tests. Expected values are those of spec/95_test_vectors.md and of the rules' own examples (named at
each test). Then, for every statement that has hypotheses, a witness that concrete states and operands meet them.
-/

namespace Sys2Proof.Tests

open Sys2Proof Sys2Proof.Machine Sys2Proof.Claims

/-! ## Helpers -/

/-- The next state an outcome answers, if it answers one. -/
def nextState : Host.Outcome State Fault Refusal → Option State
  | .next s => some s
  | .fault _ => none
  | .refused _ => none

theorem next_of_nextState {o : Host.Outcome State Fault Refusal} {t : State} (h : nextState o = some t) :
    o = .next t := by
  cases o with
  | next s => exact congrArg _ (Option.some.inj h)
  | fault f => cases h
  | refused r => cases h

/-- The result an instruction returns from reset. -/
def resultOf (i : Instr) : Option Result := (nextState (exec i State.reset)).bind (·.results.getLast?)

/-- Right after reset, with a valid CRC of the given value. -/
def withCrcOf (c : Half) : State := { State.reset with crc := c, crcValid := true }

/-- The frame of the spec's scenario E8. -/
def resp42 : List Byte := [0x01#8, 0x03#8, 0x02#8, 0x00#8, 0x2A#8, 0x39#8, 0x9B#8]

/-- The request frame of the spec's scenario E8. -/
def req100 : List Byte := [0x01#8, 0x03#8, 0x01#8, 0x00#8, 0x00#8, 0x01#8, 0x85#8, 0xF6#8]

/-- The exception frame of the spec's E6. -/
def exc02 : List Byte := [0x01#8, 0x83#8, 0x02#8, 0xC0#8, 0xF1#8]

/-! ## Well-formedness: an ill-formed term for each check -/

theorem test_wf_refuses_long_response_operand :
    (Instr.decResp (.presented (List.replicate 257 0#8)) 0x01#8 0x03#8 1#16).wf = false := by decide +kernel
theorem test_wf_refuses_long_request_operand :
    (Instr.parseReq (.presented (List.replicate 257 0#8))).wf = false := by decide +kernel
theorem test_wf_refuses_assigned_reserved :
    [0x01#8, 0x02#8, 0x03#8, 0x10#8, 0x20#8, 0x21#8].all (fun c => !(Instr.reserved c).wf) = true := by decide
theorem test_wf_refuses_empty_response : (Instr.frameReadResponseFc3 0x01#8 [] 0#16).wf = false := by decide
theorem test_wf_refuses_126_words :
    (Instr.frameReadResponseFc4 0x01#8 (List.replicate 126 0#16) 0#16).wf = false := by decide +kernel
theorem test_wf_refuses_clear_bit7 : (Instr.frameExceptionAnyBit7 0x01#8 0x03#8 0#8 0#16).wf = false := by decide
theorem test_wf_refuses_named_exceptions :
    (Instr.frameExceptionAnyBit7 0x01#8 0x83#8 0#8 0#16).wf = false ∧
      (Instr.frameExceptionAnyBit7 0x01#8 0x84#8 0#8 0#16).wf = false := by decide

/-! ## Decoding: one word per constructor, written out from R70 and the layouts of R60 to R62 -/

theorem test_decode_crcInit : decode (.command { cmd := 0b00000001 }) = .ok .crcInit := by decide
theorem test_decode_crcUpdate : decode (.command { cmd := 0b00000010, b := 0xA5 }) = .ok (.crcUpdate 0xA5#8) := by decide
theorem test_decode_crcRead : decode (.command { cmd := 0b00000011 }) = .ok .crcRead := by decide
theorem test_decode_encReq :
    decode (.command { cmd := 0b00010000, sa := 0xF7, fc := 0x04, ra := 0xFEDC, qty := 0x007D }) =
      .ok (.encReq 0xF7#8 0x04#8 0xFEDC#16 0x007D#16) := by decide
theorem test_decode_decResp :
    decode (.command { cmd := 0b00100000, sa := 0x11, fc := 0x03, qty := 0x0102, buf := some ⟨[0x80, 0x7F], 2⟩ }) =
      .ok (.decResp (.presented [0x80#8, 0x7F#8]) 0x11#8 0x03#8 0x0102#16) := by decide
theorem test_decode_parseReq_held : decode (.command { cmd := 0b00100001 }) = .ok (.parseReq .held) := by decide
theorem test_decode_reserved :
    [0x00, 0x04, 0x0F, 0x11, 0x1F, 0x22, 0xFF].map (fun c => decode (.command { cmd := c })) =
      [0x00#8, 0x04#8, 0x0F#8, 0x11#8, 0x1F#8, 0x22#8, 0xFF#8].map (fun c => .ok (.reserved c)) := by decide
theorem test_decode_requestFc3 :
    decode (.frame .rtuRequest [0x10#8, 0x03#8, 0x01#8, 0x03#8, 0x00#8, 0x02#8, 0x76#8, 0xB7#8]) =
      .ok (.frameReadRequestFc3 0x10#8 0x0103#16 0x0002#16 0xB776#16) := by decide
theorem test_decode_requestFc4 :
    decode (.frame .rtuRequest [0x01#8, 0x04#8, 0x12#8, 0x34#8, 0x00#8, 0x7D#8, 0x61#8, 0x43#8]) =
      .ok (.frameReadRequestFc4 0x01#8 0x1234#16 0x007D#16 0x4361#16) := by decide
theorem test_decode_responseFc3 :
    decode (.frame .rtuResponse [0x01#8, 0x03#8, 0x04#8, 0x41#8, 0x42#8, 0x43#8, 0x44#8, 0x7F#8, 0x18#8]) =
      .ok (.frameReadResponseFc3 0x01#8 [0x4142#16, 0x4344#16] 0x187F#16) := by decide
theorem test_decode_responseFc4 :
    decode (.frame .rtuResponse [0x01#8, 0x04#8, 0x02#8, 0x00#8, 0x2A#8, 0x38#8, 0xEF#8]) =
      .ok (.frameReadResponseFc4 0x01#8 [0x002A#16] 0xEF38#16) := by decide
theorem test_decode_exceptionFc3 :
    decode (.frame .rtuException exc02) = .ok (.frameExceptionFc3 0x01#8 0x02#8 0xF1C0#16) := by decide
theorem test_decode_exceptionFc4 :
    decode (.frame .rtuException [0x01#8, 0x84#8, 0x02#8, 0xC2#8, 0xC1#8]) =
      .ok (.frameExceptionFc4 0x01#8 0x02#8 0xC1C2#16) := by decide
theorem test_decode_exceptionAnyBit7 :
    decode (.frame .rtuException [0x01#8, 0x90#8, 0x02#8, 0xCD#8, 0xC1#8]) =
      .ok (.frameExceptionAnyBit7 0x01#8 0x90#8 0x02#8 0xC1CD#16) := by decide

/-- R26, R171: what the decoder rejects, by name; an unused operand is ignored however wide. -/
theorem test_decode_rejects :
    decode (.command { cmd := 0x02, b := 256 }) = .error .operandTooWide ∧
      decode (.command { cmd := 0x101 }) = .error .operandTooWide ∧
      decode (.command { cmd := 0x21, buf := some ⟨[], 257⟩ }) = .error .frameTooLong ∧
      decode (.command { cmd := 0x01, b := 256, buf := some ⟨[], 257⟩ }) = .ok .crcInit ∧
      decode (.frame .rtuRequest exc02) = .error (.unrecognisedFrame exc02) := by decide

/-- The table words the host pipeline asks about: the six command words, a reserved one, the words that are only frame
rows' own, and 0xFF, which is reserved as a command word. -/
theorem test_table_words :
    [0x01, 0x02, 0x03, 0x10, 0x20, 0x21, 0x00].map (decodeTableWord 8) =
      [some .crcInit, some (.crcUpdate 0#8), some .crcRead, some (.encReq 0#8 0#8 0#16 0#16),
        some (.decResp (.presented []) 0#8 0#8 0#16), some (.parseReq (.presented [])), some (.reserved 0#8)] ∧
    [0x04, 0x83, 0x84, 0x80, 0xFF].map (decodeTableWord 8) =
      [some (.frameReadRequestFc4 0#8 0#16 0#16 0#16), some (.frameExceptionFc3 0#8 0#8 0#16),
        some (.frameExceptionFc4 0#8 0#8 0#16), some (.frameExceptionAnyBit7 0#8 0x80#8 0#8 0#16),
        some (.reserved 0xFF#8)] := by
  decide

/-! ## The CRC: section 2.1 of the vectors -/

theorem test_crc_steps :
    crcStep 0xFFFF#16 0x01#8 = 0x807E#16 ∧ crcStep 0x0000#16 0x01#8 = 0xC0C1#16 ∧
      crcStep 0x0000#16 0x80#8 = 0xA001#16 := by decide +kernel
theorem test_crc16 :
    crc16 [0x03#8] = 0x41FF#16 ∧ crc16 [0x41#8] = 0x707F#16 ∧ crc16 [0x80#8] = 0xE0BE#16 ∧
      crc16 (List.replicate 8 0x00#8) = 0x0B40#16 ∧
      crc16 [0x31#8, 0x32#8, 0x33#8, 0x34#8, 0x35#8, 0x36#8, 0x37#8, 0x38#8, 0x39#8] = 0x4B37#16 := by decide +kernel

/-! ## The commands: sections 2.2 to 2.5 of the vectors -/

theorem test_crcInit : exec .crcInit State.reset =
    .next { State.reset with crc := 0xFFFF#16, crcValid := true, results := [.ok .none] } := by rfl
theorem test_crcUpdate : (nextState (exec (.crcUpdate 0x03#8) (withCrcOf 0x807E#16))).map (·.crc) =
    some 0x2140#16 := by decide +kernel
theorem test_crcUpdate_uninitialised : exec (.crcUpdate 0x01#8) State.reset = .fault .crcNotInitialised := by rfl
theorem test_crcRead : exec .crcRead (withCrcOf 0xF685#16) =
    .next { withCrcOf 0xF685#16 with results := [.ok (.crc 0xF685#16)] } := by rfl
theorem test_crcRead_uninitialised : exec .crcRead State.reset = .fault .crcNotInitialised := by rfl
theorem test_encReq_largest : resultOf (.encReq 0xF7#8 0x03#8 0xFFFF#16 125#16) =
    some (.ok (.request [0xF7#8, 0x03#8, 0xFF#8, 0xFF#8, 0x00#8, 0x7D#8, 0x91#8, 0x59#8])) := by decide +kernel
theorem test_encReq_errors :
    [0x0000#16, 126#16, 0x0100#16, 0xFFFF#16].map (fun q => resultOf (.encReq 0x01#8 0x03#8 0#16 q)) =
        List.replicate 4 (some (.encodingError .quantityOutOfRange)) ∧
      resultOf (.encReq 0x01#8 0x83#8 0#16 1#16) = none := by decide +kernel
theorem test_decResp_words : resultOf (.decResp (.presented
      [0x01#8, 0x03#8, 0x06#8, 0x12#8, 0x34#8, 0x56#8, 0x78#8, 0x9A#8, 0xBC#8, 0x69#8, 0x43#8]) 0x01#8 0x03#8 3#16) =
    some (.ok (.words [0x1234#16, 0x5678#16, 0x9ABC#16])) := by decide +kernel

/-- Section 2.3 row by row, for both values of the OPEN `EXC_MATCH`. -/
theorem test_decResp_vectors (m : ExcMatch) :
    decRespResult m exc02 0x01#8 0x03#8 1#16 = .deviceExceptionError 0x02#8 ∧
      decRespResult m [0x01#8, 0x90#8, 0x02#8, 0xCD#8, 0xC1#8] 0x01#8 0x03#8 1#16 =
        (match m with | .strict => .frameError .functionMismatch | .bit7 => .deviceExceptionError 0x02#8) ∧
      decRespResult m [0x01#8, 0x83#8, 0x02#8, 0x00#8, 0xF1#8, 0x50#8] 0x01#8 0x03#8 1#16 = .frameError .wrongLength ∧
      decRespResult m [0x01#8, 0x83#8, 0x02#8, 0xC0#8] 0x01#8 0x03#8 1#16 = .frameError .wrongLength ∧
      decRespResult m [0x01#8, 0x03#8, 0x02#8, 0x00#8, 0x2B#8, 0x39#8, 0x9B#8] 0x01#8 0x03#8 1#16 =
        .frameError .crcMismatch ∧
      decRespResult m [0x02#8, 0x83#8, 0x02#8, 0x30#8, 0xF1#8] 0x01#8 0x03#8 1#16 = .frameError .addressMismatch ∧
      decRespResult m [0x01#8, 0x05#8, 0x02#8, 0x00#8, 0x2A#8, 0x39#8, 0x13#8] 0x01#8 0x03#8 1#16 =
        .frameError .functionMismatch ∧
      decRespResult m resp42 0x01#8 0x03#8 2#16 = .frameError .byteCountMismatch ∧
      decRespResult m [0x01#8, 0x03#8, 0x04#8, 0x00#8, 0x2A#8, 0xD9#8, 0x9A#8] 0x01#8 0x03#8 2#16 =
        .frameError .wrongLength := by
  cases m <;> decide +kernel

theorem test_parseReq_accepts : resultOf (.parseReq (.presented req100)) =
    some (.ok (.fields 0x01#8 0x03#8 0x0100#16 0x0001#16)) := by decide +kernel
theorem test_parseReq_errors :
    [[0x01#8, 0x06#8, 0x00#8, 0x01#8, 0x00#8, 0x03#8, 0x98#8, 0x0B#8],
      [0x01#8, 0x03#8, 0x00#8, 0x00#8, 0x00#8, 0x7E#8, 0xC5#8, 0xEA#8], resp42 ++ [0x00#8],
      req100 ++ [0x00#8], [0x01#8, 0x03#8, 0x01#8, 0x00#8, 0x00#8, 0x01#8, 0xF6#8, 0x85#8]].map parseReqResult =
      [.frameError .functionMismatch, .frameError .quantityOutOfRange, .frameError .quantityOutOfRange,
        .frameError .wrongLength, .frameError .crcMismatch] := by decide +kernel

theorem test_reserved : step (State.reset.withFetchWord 8 0x00) = .refused .reservedCommand := by rfl

/-! ## The frame rows -/

theorem test_frame_request_fills_buffer :
    (nextState (exec (.frameReadRequestFc3 0x01#8 0x0100#16 0x0001#16 0xF685#16) State.reset)).map
      (fun t => (t.buf, t.len)) =
      some ([(0, 0x01#8), (1, 0x03#8), (2, 0x01#8), (5, 0x01#8), (6, 0x85#8), (7, 0xF6#8)], 8) := by decide +kernel
theorem test_frame_response_then_decResp :
    ((nextState (exec (.frameReadResponseFc3 0x01#8 [0x002A#16] 0x9B39#16) State.reset)).bind fun t =>
      (nextState (exec (.decResp .held 0x01#8 0x03#8 1#16) t)).map (·.results)) =
      some [.ok (.words [0x002A#16])] := by decide +kernel

/-- R22, R52: a second command that brings no frame does not find the first one's frame, nor one handed over before a command
that reads none. -/
theorem test_no_frame_survives :
    ((nextState (exec (.parseReq (.presented req100)) State.reset)).bind fun t =>
        (nextState (exec (.parseReq .held) t)).bind (·.results.getLast?)) = some (.frameError .wrongLength) ∧
      ((nextState (exec .crcInit (State.reset.fill req100))).bind fun t =>
        (nextState (exec (.parseReq .held) t)).bind (·.results.getLast?)) = some (.frameError .wrongLength) := by
  decide +kernel

/-! ## Assembler lines: the examples of R72 -/

theorem test_asm_lines :
    [Instr.crcInit, .crcUpdate 0x01#8, .crcRead, .encReq 0x01#8 0x03#8 0x0100#16 0x0001#16,
      .decResp (.presented resp42) 0x01#8 0x03#8 0x0001#16, .parseReq (.presented req100)].map asmLine =
      [some "CRC_INIT", some "CRC_UPDATE 0x01", some "CRC_READ",
        some "ENC_REQ    sa=0x01, fc=0x03, ra=0x0100, qty=0x0001",
        some "DEC_RESP   [01 03 02 00 2A 39 9B], sa=0x01, fc=0x03, qty=0x0001",
        some "PARSE_REQ  [01 03 01 00 00 01 85 F6]"] := by decide +kernel

/-- The longest response (125 words) of section 2.3: the data bytes `(7*i) mod 256`, CRC field `01 AC`. -/
def longest : List Byte :=
  [0x01#8, 0x03#8, 0xFA#8] ++ (List.range 250).map (fun i => BitVec.ofNat 8 (7 * i)) ++ [0x01#8, 0xAC#8]

/-- The CRC of the longest response, in four parts. -/
theorem test_longest_crc : crc16 (longest.take 253) = 0xAC01#16 := by
  have h1 : crcFold 0xFFFF#16 (longest.take 64) = 0x2348#16 := by decide +kernel
  have h2 : crcFold 0x2348#16 ((longest.drop 64).take 64) = 0xD6E0#16 := by decide +kernel
  have h3 : crcFold 0xD6E0#16 ((longest.drop 128).take 64) = 0xFA16#16 := by decide +kernel
  have h4 : crcFold 0xFA16#16 ((longest.drop 192).take 61) = 0xAC01#16 := by decide +kernel
  have hs : longest.take 253 = longest.take 64 ++ ((longest.drop 64).take 64 ++
      ((longest.drop 128).take 64 ++ (longest.drop 192).take 61)) := by decide +kernel
  rw [crc16_eq_fold, hs, crcFold_append, crcFold_append, crcFold_append, h1, h2, h3, h4]

theorem test_longest_words : longest.length = 255 ∧ responseDataResult longest 125#16 =
      .ok (.words ((List.range 125).map (frameWord longest))) ∧
      frameWord longest 0 = 0x0007#16 ∧ frameWord longest 1 = 0x0E15#16 := by decide +kernel

/-! ## Witnesses: for every statement with hypotheses, concrete data that meets them, clause by clause -/

/-- Right after reset, the host presenting one item next. -/
def presenting (i : HostInput) : State := { State.reset with pending := [i] }

/-- A response with a good CRC and one extra byte in its data. -/
def extraByte : List Byte := [0x01#8, 0x03#8, 0x02#8, 0x00#8, 0x2A#8, 0x00#8, 0x5B#8, 0x12#8]

/-- A response with byte count 0 and a good CRC. -/
def noData : List Byte := [0x01#8, 0x03#8, 0x00#8, 0x20#8, 0xF0#8]

/-- A response whose function byte is 4, with a good CRC. -/
def resp4 : List Byte := [0x01#8, 0x04#8, 0x02#8, 0x00#8, 0x2A#8, 0x38#8, 0xEF#8]

theorem witness_ResidueOfACorrectFrameIsZero : 2 ≤ [0xFF#8, 0xFF#8].length := by decide

theorem witness_CrcIsLinearOverXor :
    [0x01#8].length = [0x80#8].length ∧ [0xFE#8].length = [0x80#8].length := by decide

/-- A flip in the last byte of the CRC field, a flip in the first byte. -/
theorem witness_EverySingleBitFlipIsDetected :
    (2 ≤ [0xFF#8, 0xFF#8].length ∧ crcOk [0xFF#8, 0xFF#8] = true ∧ 1 < [0xFF#8, 0xFF#8].length ∧ 7 < 8) ∧
      2 ≤ resp42.length ∧ crcOk resp42 = true ∧ 0 < resp42.length ∧ 0 < 8 := by decide +kernel

theorem witness_AppendedZeroPassesCrcButNotLength :
    (2 ≤ resp42.length ∧ crcOk resp42 = true) ∧
      decRespResult .strict resp42 0x01#8 0x03#8 1#16 = .ok (.words [0x002A#16]) ∧
      decRespResult .bit7 exc02 0x01#8 0x03#8 1#16 = .deviceExceptionError 0x02#8 ∧
      parseReqResult req100 = .ok (.fields 0x01#8 0x03#8 0x0100#16 0x0001#16) := by decide +kernel

/-- Both ends of the range of word counts. -/
theorem witness_word_counts :
    (1 ≤ [0x002A#16].length ∧ [0x002A#16].length ≤ 125) ∧
      1 ≤ (List.replicate 125 0x8005#16).length ∧ (List.replicate 125 0x8005#16).length ≤ 125 := by decide +kernel

theorem witness_FrameLayouts :
    1 ≤ (List.replicate 127 0x8005#16).length ∧ 2 * (List.replicate 127 0x8005#16).length < 256 := by decide +kernel

theorem witness_FrameLengths : 1 ≤ [0x002A#16].length ∧ [0x002A#16].length ≤ 125 := witness_word_counts.1

theorem witness_CrcFieldCoversEveryByteBeforeIt : 2 ≤ [0xFF#8, 0xFF#8].length := by decide

theorem witness_StreamReaderFindsTheFirstFrame :
    (0x04#8).msb = false ∧ 1 ≤ (List.replicate 125 0x8005#16).length ∧
      (List.replicate 125 0x8005#16).length ≤ 125 := ⟨by decide, witness_word_counts.2⟩

theorem witness_CrcUpdateFoldsOneByte :
    (withCrcOf 0xFFFF#16).crcValid = true ∧ State.reset.crcValid = false := ⟨rfl, rfl⟩

theorem witness_CrcReadReturnsTheCrc :
    (withCrcOf 0xFFFF#16).crcValid = true ∧ State.reset.crcValid = false ∧
      ∃ t, exec .crcInit State.reset = .next t := ⟨rfl, rfl, _, rfl⟩

/-- A request parsed between two CRC_UPDATEs. -/
theorem witness_InterleavedCrcsAreMixed :
    (∃ b, Instr.parseReq (.presented []) = .parseReq b) ∧
      (∃ t, exec (.parseReq (.presented [])) State.reset = .next t) ∧
      ∃ t, execSeq [.crcInit, .crcUpdate 0x01#8, .parseReq (.presented []), .crcUpdate 0x03#8, .crcRead]
        State.reset = .next t := ⟨⟨_, rfl⟩, ⟨_, rfl⟩, _, rfl⟩

theorem witness_OnlyTheCrcCommandsTouchTheAccumulator :
    (∃ t, exec .crcRead (withCrcOf 0x0A84#16) = .next t) ∧ Instr.crcRead ≠ .crcInit ∧
      (∀ b, Instr.crcRead ≠ .crcUpdate b) ∧
      ((∀ b, Instr.parseReq .held ≠ .crcUpdate b) ∧ Instr.parseReq .held ≠ .crcRead ∧
        Instr.parseReq .held ≠ .crcInit) := ⟨⟨_, rfl⟩, by simp, by simp, by simp, by simp, by simp⟩

/-- A reset item takes a valid CRC away; CRC_INIT brings it. -/
theorem witness_CrcValidIsClearedOnlyByReset :
    (∃ t, exec .crcInit State.reset = .next t ∧ t.crcValid = true) ∧
      (∃ t, step { withCrcOf 0x0A84#16 with pending := [.reset] } = .next t ∧
        ({ withCrcOf 0x0A84#16 with pending := [.reset] } : State).crcValid = true ∧ t.crcValid = false) ∧
      State.reset.crcValid = false ∧
      ((∀ b, Instr.parseReq .held ≠ .crcUpdate b) ∧ Instr.parseReq .held ≠ .crcRead ∧
        Instr.parseReq .held ≠ .crcInit) :=
  ⟨⟨_, rfl, rfl⟩, ⟨_, rfl, rfl, rfl⟩, rfl, by simp, by simp, by simp⟩

theorem witness_NothingRevealsTheCrcOfReset : State.reset.crcValid = false := rfl

/-- Codes on either side of 3 and 4; quantities at and beyond both ends of the range. -/
theorem witness_EncReqBuildsTheRequestFrame :
    (¬ BlockCode 0x02#8 ∧ ¬ BlockCode 0x05#8) ∧ (BlockCode 0x03#8 ∧ ¬ InRange 0#16 ∧ ¬ InRange 126#16) ∧
      BlockCode 0x04#8 ∧ InRange 1#16 ∧ InRange 125#16 := by
  simp [BlockCode, InRange]

theorem witness_SlaveAddressIsAHostPremiseOnly :
    (¬ hostSlaveAddress 0x00#8 ∧ ¬ hostSlaveAddress 0xF8#8) ∧ BlockCode 0x03#8 ∧ InRange 125#16 := by
  simp [hostSlaveAddress, BlockCode, InRange]

theorem witness_EncReqFramesHaveCorrectCrc :
    ∃ t, exec (.encReq 0x01#8 0x03#8 0x0100#16 0x0001#16) State.reset = .next t ∧
      t.results = State.reset.results ++ [.ok (.request req100)] :=
  ⟨{ State.reset with results := [.ok (.request req100)] }, next_of_nextState (by decide +kernel), rfl⟩

theorem witness_EncReqAndParseReqAreInverse :
    (BlockCode 0x04#8 ∧ InRange 125#16) ∧
      ∃ u, exec (.parseReq (.presented req100)) State.reset = .next u ∧
        u.results = State.reset.results ++ [.ok (.fields 0x01#8 0x03#8 0x0100#16 0x0001#16)] := by
  refine ⟨by simp [BlockCode, InRange], State.reset.emit
    (.ok (.fields 0x01#8 0x03#8 0x0100#16 0x0001#16)), next_of_nextState (by decide +kernel), rfl⟩

/-- The empty frame, a frame that fills the buffer, and the buffer as it stands; each operand class. -/
theorem witness_DecRespReportsTheFirstFailedCheck :
    (BufOperand.presented (List.replicate 256 0xFF#8)).wf = true ∧
      (State.reset.present (.presented (List.replicate 256 0xFF#8))).len ≤ 256 ∧
      (State.reset.present (.presented [])).len ≤ 256 ∧ (State.reset.present .held).len ≤ 256 ∧
      ¬ BlockCode 0x05#8 ∧ (BlockCode 0x03#8 ∧ ¬ InRange 126#16) ∧ BlockCode 0x04#8 ∧ InRange 125#16 := by
  refine ⟨by decide +kernel, by decide +kernel, by decide, by decide, ?_⟩
  simp [BlockCode, InRange]

theorem witness_ShortResponseIsWrongLength :
    BlockCode 0x03#8 ∧ InRange 1#16 ∧ (State.reset.present (.presented [0x01#8, 0x83#8, 0x02#8, 0xC0#8])).len < 5 ∧
      (State.reset.present (.presented [])).len < 5 := by
  refine ⟨?_, ?_, by decide, by decide⟩ <;> simp [BlockCode, InRange]

/-- A frame of 5 bytes with a bad CRC and one with a good CRC. -/
theorem witness_BadCrcIsReportedBeforeAnyField :
    BlockCode 0x03#8 ∧ InRange 1#16 ∧ 5 ≤ (State.reset.present (.presented (List.replicate 5 0#8))).len ∧
      (State.reset.present (.presented (List.replicate 5 0#8))).len ≤ 256 ∧
      crc16 (State.reset.present (.presented (List.replicate 5 0#8))).frame ≠ 0x0000#16 ∧
      5 ≤ (State.reset.present (.presented exc02)).len ∧ (State.reset.present (.presented exc02)).len ≤ 256 ∧
      crc16 (State.reset.present (.presented exc02)).frame = 0x0000#16 := by
  refine ⟨?_, ?_, by decide +kernel⟩ <;> simp [BlockCode, InRange]

/-- Another slave's frame; an exception frame of 5 bytes; one of 6 bytes. -/
theorem witness_SlaveEchoThenExceptionResponse :
    BlockCode 0x03#8 ∧ InRange 1#16 ∧
      (5 ≤ exc02.length ∧ exc02.length ≤ 256 ∧ crcOk exc02 = true ∧ exc02.getD 0 0#8 ≠ 0x02#8) ∧
      exc02.getD 0 0#8 = 0x01#8 ∧ (exc02.getD 1 0#8).msb = true := by
  refine ⟨?_, ?_, by decide +kernel⟩ <;> simp [BlockCode, InRange]

theorem witness_ExceptionCodeIsReportedUnchanged :
    (∃ t, exec (.decResp (.presented exc02) 0x01#8 0x03#8 1#16) State.reset = .next t ∧
      t.results = State.reset.results ++ [.deviceExceptionError 0x02#8]) ∧ BlockCode 0x04#8 ∧ InRange 125#16 := by
  have h : ∀ m, decRespResult m exc02 0x01#8 0x03#8 1#16 = .deviceExceptionError 0x02#8 := by
    intro m
    cases m <;> decide +kernel
  refine ⟨⟨_, exec_decResp 0x01#8 (by decide) (by decide) (by decide), ?_⟩, ?_⟩
  · simp [h]
  · simp [BlockCode, InRange]

/-- The clause on extra bytes: an accepted frame. -/
theorem witness_ResponseMismatchesInOrder_accepted :
    Returns (.decResp (.presented resp42) 0x01#8 0x03#8 1#16) State.reset State.reset
      (.ok (.words [0x002A#16])) :=
  ⟨State.reset.emit (.ok (.words [0x002A#16])), next_of_nextState (by decide +kernel), rfl⟩

/-- Each clause: another function code; another byte count; a byte count of 0; another length. -/
theorem witness_ResponseMismatchesInOrder :
    BlockCode 0x03#8 ∧ InRange 1#16 ∧ InRange 2#16 ∧
      (5 ≤ resp4.length ∧ resp4.length ≤ 256 ∧ crcOk resp4 = true ∧ resp4.getD 0 0#8 = 0x01#8 ∧
        (resp4.getD 1 0#8).msb = false ∧ resp4.getD 1 0#8 ≠ 0x03#8) ∧
      (crcOk resp42 = true ∧ resp42.getD 1 0#8 = 0x03#8 ∧ (resp42.getD 2 0#8).toNat ≠ 2 * (2#16).toNat) ∧
      (5 ≤ noData.length ∧ crcOk noData = true ∧ noData.getD 1 0#8 = 0x03#8 ∧ (noData.getD 2 0#8).toNat = 0) ∧
      (resp42 ++ [0xFF#8]).length ≤ 256 ∧
      crcOk extraByte = true ∧ extraByte.getD 1 0#8 = 0x03#8 ∧ (extraByte.getD 2 0#8).toNat = 2 * (1#16).toNat ∧
        extraByte.length ≠ 5 + 2 * (1#16).toNat := by
  refine ⟨?_, ?_, ?_, by decide +kernel⟩ <;> simp [BlockCode, InRange]

theorem witness_ResponseWordsAreBigEndianInWireOrder :
    ∃ t, exec (.decResp (.presented resp42) 0x01#8 0x03#8 1#16) State.reset = .next t ∧
      t.results = State.reset.results ++ [.ok (.words [0x002A#16])] :=
  ⟨State.reset.emit (.ok (.words [0x002A#16])), next_of_nextState (by decide +kernel), rfl⟩

theorem witness_DecRespIsPure :
    (State.reset.present (.presented resp42)).frame = ((withCrcOf 7#16).present (.presented resp42)).frame ∧
      (State.reset.present (.presented resp42)).len ≤ 256 := by decide +kernel

theorem witness_ResponseRoundTrip :
    BlockCode 0x04#8 ∧ InRange 125#16 ∧ (List.replicate 125 0x8005#16).length = (125#16).toNat := by
  refine ⟨?_, ?_, by decide +kernel⟩ <;> simp [BlockCode, InRange]

theorem witness_DecRespAcceptsExactlyCorrectResponses : BlockCode 0x03#8 ∧ InRange 125#16 := by
  simp [BlockCode, InRange]

theorem witness_EverySingleBitFlipOfAResponseIsACrcMismatch :
    (∃ u, exec (.decResp (.presented resp42) 0x01#8 0x03#8 1#16) State.reset = .next u ∧
      u.results = State.reset.results ++ [.ok (.words [0x002A#16])]) ∧
      (∃ u, exec (.decResp (.presented exc02) 0x01#8 0x03#8 1#16) State.reset = .next u ∧
        u.results = State.reset.results ++ [.deviceExceptionError 0x02#8]) ∧
      6 < resp42.length ∧ 7 < 8 :=
  ⟨witness_ResponseWordsAreBigEndianInWireOrder, witness_ExceptionCodeIsReportedUnchanged.1, by decide, by decide⟩

theorem witness_ParseReqReportsTheFirstFailedCheck :
    (BufOperand.presented (List.replicate 256 0xFF#8)).wf = true ∧
      (State.reset.present (.presented (List.replicate 256 0xFF#8))).len ≤ 256 ∧
      (State.reset.present .held).len ≤ 256 := by decide +kernel

theorem witness_ParseReqKnowsOnlyTheReadCodes :
    (withCrc [0x01#8, 0x06#8, 0x00#8, 0x01#8, 0x00#8, 0x03#8]).length = 8 ∧
      crcOk (withCrc [0x01#8, 0x06#8, 0x00#8, 0x01#8, 0x00#8, 0x03#8]) = true ∧
      ¬ BlockCode ((withCrc [0x01#8, 0x06#8, 0x00#8, 0x01#8, 0x00#8, 0x03#8]).getD 1 0#8) := by
  refine ⟨rfl, by simp, ?_⟩
  show ¬ BlockCode 0x06#8
  simp [BlockCode]

theorem witness_HandedFrameStandsInTheBuffer :
    1 ≤ (List.replicate 125 0x8005#16).length ∧ (List.replicate 125 0x8005#16).length ≤ 125 :=
  witness_word_counts.2

/-- For the last clause, an exception byte of the other code and one of no code. -/
theorem witness_HandedFramesAreParsedByTheirKind :
    InRange 1#16 ∧ InRange 125#16 ∧ (List.replicate 125 0x8005#16).length = (125#16).toNat ∧ BlockCode 0x03#8 ∧
      ((0x84#8).msb = true ∧ 0x84#8 ≠ 0x03#8 ||| 0x80#8) ∧ (0xFF#8).msb = true ∧ 0xFF#8 ≠ 0x03#8 ||| 0x80#8 := by
  refine ⟨by simp [InRange], by simp [InRange], by decide +kernel, by simp [BlockCode], by decide⟩

/-- A byte above `len` differs, the bytes below do not. -/
theorem witness_BytesAboveTheLengthHaveNoEffect :
    let s : State := { State.reset with buf := [(0, 0x01#8), (1, 0x55#8)], len := 1 }
    ∀ i, i < s.len → Memory.read [(0, 0x01#8), (1, 0xAA#8)] i = s.bufRead i := by decide

/-- The first reserved value, one between two assigned ones, and the last. -/
theorem witness_EveryOtherCommandWordIsReserved :
    (∀ w ∈ [0x00, 0x04, 0x1F, 0x22, 0xFF], w < 256 ∧ w ≠ 0x01 ∧ w ≠ 0x02 ∧ w ≠ 0x03 ∧ w ≠ 0x10 ∧ w ≠ 0x20 ∧
      w ≠ 0x21) ∧ (presenting (.present (.command { cmd := 0xFF }))).faultMark = false ∧
      (presenting (.present (.command { cmd := 0xFF }))).refusedMark = false ∧
      (presenting (.present (.command { cmd := 0xFF }))).pending = .present (.command { cmd := 0xFF }) :: [] := by
  decide

theorem witness_OnlyUsedOperandsMatter :
    (256 < (⟨[], 257⟩ : BufInput).len) ∧ (∃ v ∈ [0x100].take 1, 256 ≤ v) ∧
      decode (.command { cmd := 0x10, qty := 65536 }) = .error .operandTooWide ∧
      (presenting (.present (.command { cmd := 0x10, qty := 65536 }))).pending =
        .present (.command { cmd := 0x10, qty := 65536 }) :: [] ∧
      decode (.command { cmd := 0x20, buf := some ⟨[], 257⟩ }) = .error .frameTooLong := by decide

theorem witness_DecodeOfEncodeIsTheInstruction :
    (Instr.frameReadResponseFc3 0x01#8 (List.replicate 125 0x8005#16) 0#16).wf = true ∧
      (Instr.decResp (.presented (List.replicate 256 0xFF#8)) 0x01#8 0x03#8 0xFFFF#16).wf = true ∧
      (Instr.reserved 0xFF#8).wf = true ∧ (Instr.frameExceptionAnyBit7 0x01#8 0xFF#8 0#8 0#16).wf = true := by
  decide +kernel

theorem witness_EncodeOfDecodedFrameIsTheFrame :
    decode (.frame .rtuResponse resp42) = .ok (.frameReadResponseFc3 0x01#8 [0x002A#16] 0x9B39#16) := by decide

theorem witness_EveryCommandReturnsOneResult : ∃ t, exec .crcInit State.reset = .next t := ⟨_, rfl⟩

theorem witness_ErrorKindsAndWhoRaisesThem :
    ∃ t, exec (.parseReq (.presented [])) State.reset = .next t ∧
      t.results = State.reset.results ++ [.frameError .wrongLength] := ⟨_, rfl, rfl⟩

theorem witness_EncodingErrorExactlyForBadQuantity :
    ∃ t, exec (.encReq 0x01#8 0x03#8 0#16 126#16) State.reset = .next t ∧
      t.results = State.reset.results ++ [.encodingError .quantityOutOfRange] := ⟨_, rfl, rfl⟩

theorem witness_ErrorsChangeNothing :
    ∃ t, exec (.parseReq (.presented [])) State.reset = .next t ∧
      t.results = State.reset.results ++ [.frameError .wrongLength] ∧
      (Result.frameError .wrongLength).status ≠ 0#2 := ⟨_, rfl, rfl, by decide⟩

theorem witness_FaultExactlyWithoutAValidCrc :
    step (presenting (.present (.command { cmd := 0x03 }))) = .fault .crcNotInitialised ∧
      (presenting (.present (.command { cmd := 0x03 }))).faultMark = false ∧
      (presenting (.present (.command { cmd := 0x03 }))).refusedMark = false ∧
      (State.reset.markFault).faultMark = true := ⟨rfl, rfl, rfl, rfl⟩

theorem witness_RefusalsAreExactlyThoseListed :
    (Instr.decResp (.presented (List.replicate 256 0#8)) 0x01#8 0x05#8 1#16).wf = true ∧ State.reset.len ≤ 256 ∧
      ¬ BlockCode 0x05#8 ∧ (BlockCode 0x03#8 ∧ ¬ InRange 126#16) ∧ 256 < (List.replicate 257 0#8).length ∧
      step (presenting (.present (.command { cmd := 0x02, b := 256 }))) = .refused .operandTooWide ∧
      (State.reset.markRefused).refusedMark = true := by
  refine ⟨by decide +kernel, by decide, by simp [BlockCode], by simp [BlockCode, InRange], by decide +kernel,
    rfl, rfl⟩

/-- The widths: a `len` of 257; then the least value too wide for each operand, none of them beside such a `len`. -/
theorem witness_RefusalsAreExactlyThoseListed_widths :
    (∃ b : BufInput, (⟨[], 257⟩ : BufInput) = b ∧ 256 < b.len) ∧
      ([{ cmd := 256 }, { cmd := 0x02, b := 256 }, { cmd := 0x10, sa := 256 }, { cmd := 0x10, fc := 256 },
        { cmd := 0x10, ra := 65536 }, { cmd := 0x10, qty := 65536 }, { cmd := 0x20, sa := 256 },
        { cmd := 0x20, fc := 256 }, { cmd := 0x20, qty := 65536 },
        { cmd := 0x21, buf := some ⟨[255, 256], 2⟩ }] : List CommandInput).map
          (fun c => (decode (.command c), (presenting (.present (.command c))).pending.length)) =
        List.replicate 10 (.error .operandTooWide, 1) ∧
      decode (.command { cmd := 0x20, sa := 256, buf := some ⟨[], 257⟩ }) = .error .frameTooLong := by
  refine ⟨⟨_, rfl, by decide⟩, by decide, by decide⟩

/-- A frame handed over, and commands; the last one brings no frame and finds the handed one. -/
theorem witness_EachInstructionsFrame :
    (∃ t, exec (.frameExceptionFc3 0x01#8 0x02#8 0xF1C0#16) State.reset = .next t) ∧
      isCommand (.frameExceptionFc3 0x01#8 0x02#8 0xF1C0#16) = false ∧
      (∃ t, exec .crcInit State.reset = .next t) ∧ isCommand .crcInit = true ∧
      (∃ t, exec (.encReq 0x01#8 0x03#8 0#16 0#16) State.reset = .next t) ∧
      (∃ t, exec (.parseReq .held) (State.reset.fill exc02) = .next t) ∧ isCommand (.parseReq .held) = true :=
  ⟨⟨_, rfl⟩, rfl, ⟨_, rfl⟩, rfl, ⟨_, rfl⟩, ⟨_, rfl⟩, rfl⟩

theorem witness_NoFrameSurvivesACommand :
    (isCommand .crcInit = true ∧ ∃ t, exec .crcInit (State.reset.fill exc02) = .next t) ∧
      (isCommand (.parseReq (.presented req100)) = true ∧ readsHeldFrame (.parseReq (.presented req100)) = false) ∧
      isCommand (.frameExceptionFc3 0x01#8 0x02#8 0xF1C0#16) = false ∧
      ∃ t, exec (.frameExceptionFc3 0x01#8 0x02#8 0xF1C0#16) State.reset = .next t :=
  ⟨⟨rfl, _, rfl⟩, ⟨rfl, rfl⟩, rfl, _, rfl⟩

/-- After a reset of a state in which a CRC is under way; the longest frame. -/
theorem witness_RightAfterReset :
    (State.reset = State.reset ∨ ∃ s : State, State.reset = s.applyReset) ∧
      (∃ s : State, (withCrcOf 0x0A84#16).applyReset = s.applyReset) ∧ BlockCode 0x03#8 ∧ InRange 125#16 ∧
      (State.reset.present (.presented (List.replicate 256 0#8))).len ≤ 256 :=
  ⟨.inl rfl, ⟨_, rfl⟩, .inl rfl, by simp [InRange], by decide +kernel⟩

theorem witness_ResetClearsOnlyCrcValid :
    (presenting .reset).faultMark = false ∧ (presenting .reset).refusedMark = false ∧
      (presenting .reset).pending = .reset :: [] ∧ State.reset.pending = [] := ⟨rfl, rfl, rfl, rfl⟩

theorem witness_StepRunsThePresentedInstruction :
    (presenting (.present (encode .crcInit))).faultMark = false ∧
      (presenting (.present (encode .crcInit))).refusedMark = false ∧
      (presenting (.present (encode .crcInit))).pending = .present (encode .crcInit) :: [] ∧
      decode (encode .crcInit) = .ok .crcInit ∧ decodeTableWord 8 0x01 = some .crcInit := by decide

/-- A run that completes, one that faults, one that is refused. -/
theorem witness_RunIsItsInstructionsInOrder :
    (∀ i ∈ [Instr.crcInit, .crcUpdate 0x01#8, .crcRead], i.wf = true) ∧
      (∃ t, execSeq [.crcInit] State.reset = .next t) ∧
      execSeq [.crcRead] State.reset = .fault .crcNotInitialised ∧
      execSeq [.reserved 0x00#8] State.reset = .refused .reservedCommand ∧ (Instr.reserved 0x00#8).wf = true :=
  ⟨by decide, ⟨_, rfl⟩, rfl, rfl, rfl⟩

theorem witness_EveryStepKeepsTheInvariant :
    StateInv State.reset ∧ ∃ t, step (State.reset.withFetchWord 8 0x01) = .next t ∧
      StateInv (State.reset.withFetchWord 8 0x01) := by
  have h : StateInv (State.reset.withFetchWord 8 0x01) :=
    ⟨⟨rfl, Nat.zero_le _⟩, fun r hr => absurd hr (by simp [State.withFetchWord, State.reset])⟩
  exact ⟨⟨⟨rfl, Nat.zero_le _⟩, fun r hr => absurd hr (by simp [State.reset])⟩, _, rfl, h⟩

end Sys2Proof.Tests
end

