-- ==== Sys2Proof/Proofs/CrcRegisters.lean ====
section
/-!
SUPPORT. What instructions do with the two registers of the block, `crc` (R20) and `crc_valid` (R21): who writes them, and
that an instruction other than the CRC commands does not read them.
-/

namespace Sys2Proof.Machine

/-! ## Who writes the registers -/

/-- All that an instruction can do to `crc` and `crc_valid` when it answers a next state. -/
theorem exec_crcRegisters_cases {i : Instr} {s t : State} (h : exec i s = .next t) :
    (i = .crcInit ∧ t.crc = Config.crcInitValue ∧ t.crcValid = true) ∨
      (∃ b, i = .crcUpdate b ∧ t.crc = crcStep s.crc b ∧ t.crcValid = s.crcValid) ∨
      (i ≠ .crcInit ∧ t.crc = s.crc ∧ t.crcValid = s.crcValid) := by
  by_cases hinit : i = .crcInit
  · subst hinit
    rw [exec_crcInit] at h
    cases h
    exact .inl ⟨rfl, rfl, rfl⟩
  by_cases hupd : ∃ b, i = .crcUpdate b
  · obtain ⟨b, rfl⟩ := hupd
    obtain ⟨-, rfl⟩ := exec_crcUpdate_cases h
    exact .inr (.inl ⟨b, rfl, rfl, rfl⟩)
  refine .inr (.inr ⟨hinit, ?_⟩)
  by_cases hcmd : frameBytes i = []
  · obtain ⟨c, v, r, rfl, hv, hc, -⟩ := exec_command_cases hcmd h
    exact ⟨hc hinit (not_exists.1 hupd), hv hinit⟩
  · obtain ⟨-, rfl⟩ := exec_frameRow_cases hcmd h
    exact ⟨rfl, rfl⟩

/-- No instruction clears `crc_valid`; CRC_INIT sets it. -/
theorem exec_crcValid {i : Instr} {s t : State} (h : exec i s = .next t) :
    t.crcValid = (s.crcValid || decide (i = .crcInit)) := by
  obtain ⟨rfl, -, hv⟩ | ⟨b, rfl, -, hv⟩ | ⟨hi, -, hv⟩ := exec_crcRegisters_cases h
  · simp [hv]
  · simp [hv]
  · simp [hv, hi]

/-- A step that clears `crc_valid` takes a reset from the host's queue. -/
theorem step_clears_crcValid {s t : State} (h : step s = .next t) (hs : s.crcValid = true) (ht : t.crcValid = false) :
    ∃ rest, s.pending = .reset :: rest := by
  obtain ⟨-, ⟨-, rfl⟩ | ⟨rest, hp, -⟩ | ⟨e, rest, i, -, -, hx⟩ | ⟨fmt, bytes, rest, -, -, hf⟩⟩ := step_cases h
  · simp [hs] at ht
  · exact ⟨rest, hp⟩
  · simp [exec_crcValid hx, hs] at ht
  · obtain ⟨-, rfl⟩ := handFrame_cases hf
    simp [hs] at ht

/-! ## Who reads the registers -/

/-- The state with `crc` and `crc_valid` changed, each by a function of its value, and nothing else. -/
def State.mapCrcRegisters (f : Half → Half) (g : Bool → Bool) (s : State) : State :=
  { s with crc := f s.crc, crcValid := g s.crcValid }

/-- The outcome with its next state, where it has one, changed by `f`. -/
def mapNext (f : State → State) : Host.Outcome State Fault Refusal → Host.Outcome State Fault Refusal
  | .next t => .next (f t)
  | .fault e => .fault e
  | .refused r => .refused r

@[simp] theorem mapNext_next (f : State → State) (t : State) : mapNext f (.next t) = .next (f t) := rfl
@[simp] theorem mapNext_fault (f : State → State) (e : Fault) : mapNext f (.fault e) = .fault e := rfl
@[simp] theorem mapNext_refused (f : State → State) (r : Refusal) : mapNext f (.refused r) = .refused r := rfl

section
variable (f : Half → Half) (g : Bool → Bool) (s : State)

@[simp] theorem State.mapCrcRegisters_len : (s.mapCrcRegisters f g).len = s.len := rfl
@[simp] theorem State.mapCrcRegisters_frame : (s.mapCrcRegisters f g).frame = s.frame := rfl
@[simp] theorem State.mapCrcRegisters_fill (bs : List Byte) :
    (s.mapCrcRegisters f g).fill bs = (s.fill bs).mapCrcRegisters f g := rfl
@[simp] theorem State.mapCrcRegisters_emit (r : Result) :
    (s.mapCrcRegisters f g).emit r = (s.emit r).mapCrcRegisters f g := rfl
@[simp] theorem State.mapCrcRegisters_releaseFrame :
    (s.mapCrcRegisters f g).releaseFrame = s.releaseFrame.mapCrcRegisters f g := rfl
@[simp] theorem State.mapCrcRegisters_present (buf : BufOperand) :
    (s.mapCrcRegisters f g).present buf = (s.present buf).mapCrcRegisters f g := by cases buf <;> rfl

/-- Handing over a frame does not read the registers. -/
theorem handFrame_mapCrcRegisters (bs : List Byte) :
    (s.mapCrcRegisters f g).handFrame bs = mapNext (State.mapCrcRegisters f g) (s.handFrame bs) := by
  unfold State.handFrame
  split <;> simp

/-- Presenting a frame operand does not read the registers, so the whole does not where the rest does not. -/
theorem withFrameOperand_mapCrcRegisters {k : State → Host.Outcome State Fault Refusal} (buf : BufOperand)
    (hk : ∀ t : State, k (t.mapCrcRegisters f g) = mapNext (State.mapCrcRegisters f g) (k t)) :
    withFrameOperand buf (s.mapCrcRegisters f g) k =
      mapNext (State.mapCrcRegisters f g) (withFrameOperand buf s k) := by
  unfold withFrameOperand
  rw [State.mapCrcRegisters_present, State.mapCrcRegisters_len]
  split
  · rfl
  · exact hk _

theorem exec_encReq_mapCrcRegisters (sa fc : Byte) (ra q : Half) :
    exec (.encReq sa fc ra q) (s.mapCrcRegisters f g) =
      mapNext (State.mapCrcRegisters f g) (exec (.encReq sa fc ra q) s) := by
  rw [exec_encReq, exec_encReq]
  split <;> simp

theorem exec_decResp_mapCrcRegisters (buf : BufOperand) (sa fc : Byte) (q : Half) :
    exec (.decResp buf sa fc q) (s.mapCrcRegisters f g) =
      mapNext (State.mapCrcRegisters f g) (exec (.decResp buf sa fc q) s) := by
  simp only [exec, execDecResp]
  refine withFrameOperand_mapCrcRegisters f g s buf fun t => ?_
  split
  · rfl
  · split
    · rfl
    · simp

theorem exec_parseReq_mapCrcRegisters (buf : BufOperand) :
    exec (.parseReq buf) (s.mapCrcRegisters f g) = mapNext (State.mapCrcRegisters f g) (exec (.parseReq buf) s) := by
  simp only [exec, execParseReq]
  exact withFrameOperand_mapCrcRegisters f g s buf fun t => by simp

theorem exec_frameRow_mapCrcRegisters {i : Instr} (hb : frameBytes i ≠ []) :
    exec i (s.mapCrcRegisters f g) = mapNext (State.mapCrcRegisters f g) (exec i s) := by
  rw [exec_frameRow i _ hb, exec_frameRow i _ hb]
  exact handFrame_mapCrcRegisters f g s _

/-- Every instruction but the three CRC commands does the same whatever `crc` and `crc_valid` hold, and passes on what they
hold. -/
theorem exec_mapCrcRegisters {i : Instr} (hupd : ∀ b, i ≠ .crcUpdate b) (hread : i ≠ .crcRead) (hinit : i ≠ .crcInit) :
    exec i (s.mapCrcRegisters f g) = mapNext (State.mapCrcRegisters f g) (exec i s) := by
  cases i with
  | crcInit => exact absurd rfl hinit
  | crcUpdate b => exact absurd rfl (hupd b)
  | crcRead => exact absurd rfl hread
  | encReq sa fc ra q => exact exec_encReq_mapCrcRegisters f g s sa fc ra q
  | decResp buf sa fc q => exact exec_decResp_mapCrcRegisters f g s buf sa fc q
  | parseReq buf => exact exec_parseReq_mapCrcRegisters f g s buf
  | reserved => rfl
  | _ => exact exec_frameRow_mapCrcRegisters f g s (by simp [frameBytes, reqBody, respBody, excBodyRaw])

end

/-- Settles O17: the writers by the cases of what an instruction does to the registers, the readers by
`exec_mapCrcRegisters`. -/
theorem onlyTheCrcCommandsTouchTheAccumulator : Obligations.OnlyTheCrcCommandsTouchTheAccumulator := by
  refine ⟨fun i s t h hinit hupd => ?writes, fun i s v hupd hread hinit => ?reads, fun s v => ?init⟩
  case writes =>
    obtain ⟨hi, -, -⟩ | ⟨b, hi, -, -⟩ | ⟨-, hc, -⟩ := exec_crcRegisters_cases h
    · exact absurd hi hinit
    · exact absurd hi (hupd b)
    · exact hc
  case reads =>
    have hmap := exec_mapCrcRegisters (fun _ => v) id s hupd hread hinit
    exact hmap.trans (by cases exec i s <;> rfl)
  case init => rw [exec_crcInit, exec_crcInit]; rfl

/-- Settles O18, clause by clause: set by CRC_INIT alone, cleared by a reset step alone, what a valid `crc` holds, the fault
without a valid one, and no other dependence. -/
theorem crcValidIsClearedOnlyByReset : Obligations.CrcValidIsClearedOnlyByReset := by
  refine ⟨fun i s t h => exec_crcValid h, fun s t h hs ht => step_clears_crcValid h hs ht, fun i s t h ht => ?holds,
    fun s hs => ⟨fun b => exec_crcUpdate_invalid b hs, exec_crcRead_invalid hs⟩, fun i s v hupd hread hinit => ?reads⟩
  case holds =>
    obtain ⟨hi, hc, -⟩ | ⟨b, hi, hc, -⟩ | ⟨-, hc, hv⟩ := exec_crcRegisters_cases h
    · exact .inl ⟨hi, hc⟩
    · exact .inr (.inl ⟨b, hi, hc⟩)
    · exact .inr (.inr ⟨hv ▸ ht, hc⟩)
  case reads =>
    have hmap := exec_mapCrcRegisters id (fun _ => v) s hupd hread hinit
    exact hmap.trans (by cases exec i s <;> rfl)

end Sys2Proof.Machine
end

