-- ==== Sys2Proof/Proofs/OneResult.lean ====
section
/-!
SUPPORT. Every command that completes returns exactly one result, of the kinds its row names (R28).
-/

namespace Sys2Proof.Machine

/-- The kinds of result ENC_REQ returns, and the length of the frame it builds (R60). -/
theorem encReqResult_cases (sa fc : Byte) (ra q : Half) :
    (∃ e, encReqResult sa fc ra q = .encodingError e) ∨
      ∃ out, encReqResult sa fc ra q = .ok (.request out) ∧ out.length = 8 := by
  unfold encReqResult
  split
  · exact .inr ⟨_, rfl, by simp [reqFrame]⟩
  · exact .inl ⟨_, rfl⟩

theorem exec_encReq_results {sa fc : Byte} {ra q : Half} {s t : State} (h : exec (.encReq sa fc ra q) s = .next t) :
    (∃ e, t.results = s.results ++ [.encodingError e]) ∨
      ∃ out, t.results = s.results ++ [.ok (.request out)] ∧ (Payload.request out).outLen = some 8 := by
  obtain ⟨-, rfl⟩ := exec_encReq_cases h
  obtain ⟨e, he⟩ | ⟨out, ho, hl⟩ := encReqResult_cases sa fc ra q
  · exact .inl ⟨e, congrArg (s.results ++ [·]) he⟩
  · exact .inr ⟨out, congrArg (s.results ++ [·]) ho, by simp [Payload.outLen, Payload.out, hl]⟩

theorem exec_decResp_results {buf : BufOperand} {sa fc : Byte} {q : Half} {s t : State}
    (h : exec (.decResp buf sa fc q) s = .next t) :
    (∃ e, t.results = s.results ++ [.frameError e]) ∨ (∃ c, t.results = s.results ++ [.deviceExceptionError c]) ∨
      ∃ ws, t.results = s.results ++ [.ok (.words ws)] ∧ (Payload.words ws).nwords = some q.toNat := by
  obtain ⟨-, -, -, rfl⟩ := exec_decResp_cases h
  obtain ⟨e, he, -⟩ | ⟨hx, -⟩ | ⟨hw, -⟩ := decRespResult_cases Config.excMatch (s.present buf).frame sa fc q
  · exact .inl ⟨e, congrArg (s.results ++ [·]) he⟩
  · exact .inr (.inl ⟨_, congrArg (s.results ++ [·]) hx⟩)
  · exact .inr (.inr ⟨_, congrArg (s.results ++ [·]) hw, by simp [Payload.nwords, Payload.wordsOut]⟩)

theorem exec_parseReq_results {buf : BufOperand} {s t : State} (h : exec (.parseReq buf) s = .next t) :
    (∃ e, t.results = s.results ++ [.frameError e]) ∨
      ∃ sa fc ra q, t.results = s.results ++ [.ok (.fields sa fc ra q)] := by
  obtain ⟨-, rfl⟩ := exec_parseReq_cases h
  obtain ⟨e, he, -⟩ | ⟨hf, -⟩ := parseReqResult_cases (s.present buf).frame
  · exact .inl ⟨e, congrArg (s.results ++ [·]) he⟩
  · exact .inr ⟨_, _, _, _, congrArg (s.results ++ [·]) hf⟩

/-- Settles O47: the result of each command by its own lemma; the outputs of each kind by definition. -/
theorem everyCommandReturnsOneResult : Obligations.EveryCommandReturnsOneResult := by
  refine ⟨fun i s t h => ?results, fun _ => ⟨rfl, rfl, rfl⟩, fun _ => ⟨rfl, rfl, rfl⟩, fun _ => ⟨rfl, rfl, rfl⟩,
    fun _ => ⟨rfl, rfl, rfl, rfl⟩⟩
  cases i with
  | crcInit => rw [exec_crcInit] at h; cases h; rfl
  | crcUpdate b => obtain ⟨-, rfl⟩ := exec_crcUpdate_cases h; rfl
  | crcRead => obtain ⟨-, rfl⟩ := exec_crcRead_cases h; exact ⟨s.crc, rfl⟩
  | encReq => exact exec_encReq_results h
  | decResp => exact exec_decResp_results h
  | parseReq => exact exec_parseReq_results h
  | reserved => cases h
  | _ => trivial

end Sys2Proof.Machine
end

