-- ==== Sys2Proof/Proofs/FrameLayout.lean ====
section
/-!
SUPPORT. Where each byte of a built frame stands (R60 to R64), and the CRC field at its end (R63).
-/

namespace Sys2Proof.Machine

/-! ## A body with its CRC field -/

theorem take_withCrc (body : List Byte) : (withCrc body).take body.length = body := List.take_left

theorem byteAt_withCrc_of_lt {body : List Byte} {i : Nat} (h : i < body.length) :
    byteAt (withCrc body) i = byteAt body i := byteAt_append_left body _ i h

theorem byteAt_withCrc_length (body : List Byte) : byteAt (withCrc body) body.length = lo (crc16 body) :=
  byteAt_append_right body (littleEndian (crc16 body)) 0

theorem byteAt_withCrc_length_succ (body : List Byte) : byteAt (withCrc body) (body.length + 1) = hi (crc16 body) :=
  byteAt_append_right body (littleEndian (crc16 body)) 1

/-- `CrcOk` compares the CRC of all bytes but the last two with the received CRC (R63). -/
theorem crcOk_iff (f : List Byte) : crcOk f = true ↔ crc16 (f.take (f.length - 2)) = receivedCrc f := decide_eq_true_iff

/-! ## The bytes of a normal response -/

theorem byteAt_wordBytes_even (ws : List Half) (i : Nat) : byteAt (wordBytes ws) (2 * i) = hi (ws.getD i 0#16) := by
  induction ws generalizing i with
  | nil => simp [wordBytes, byteAt, hi]
  | cons w ws ih =>
    cases i with
    | zero => rfl
    | succ i => exact ih i

theorem byteAt_wordBytes_odd (ws : List Half) (i : Nat) : byteAt (wordBytes ws) (2 * i + 1) = lo (ws.getD i 0#16) := by
  induction ws generalizing i with
  | nil => simp [wordBytes, byteAt, lo]
  | cons w ws ih =>
    cases i with
    | zero => rfl
    | succ i => exact ih i

@[simp] theorem length_respFrame (sa fc : Byte) (ws : List Half) : (respFrame sa fc ws).length = 5 + 2 * ws.length := by
  rw [respFrame, length_withCrc, length_respBody]
  omega

/-- Before its CRC field a response frame holds its body's bytes. -/
theorem byteAt_respFrame_of_lt (sa fc : Byte) {ws : List Half} {k : Nat} (h : k < 3 + 2 * ws.length) :
    byteAt (respFrame sa fc ws) k = byteAt (respBody sa fc ws) k :=
  byteAt_withCrc_of_lt (by rwa [length_respBody])

/-- The third byte of a response frame counts its data bytes, where one byte can (R61). -/
theorem byteCount_respFrame (sa fc : Byte) {ws : List Half} (h : 2 * ws.length < 256) :
    (byteAt (respFrame sa fc ws) 2).toNat = 2 * ws.length := by
  rw [byteAt_respFrame_of_lt sa fc (by omega)]
  exact (BitVec.toNat_ofNat _ 8).trans (Nat.mod_eq_of_lt h)

/-- The data bytes of a response frame stand from offset 3 on (R61). -/
theorem byteAt_respFrame_data (sa fc : Byte) {ws : List Half} {k : Nat} (h : k < 2 * ws.length) :
    byteAt (respFrame sa fc ws) (3 + k) = byteAt (wordBytes ws) k := by
  rw [byteAt_respFrame_of_lt sa fc (by omega)]
  exact byteAt_append_right [sa, fc, BitVec.ofNat 8 (2 * ws.length)] (wordBytes ws) k

/-- Word `i` of a response frame stands at offsets `3 + 2 i` and `4 + 2 i`, high byte first (R44, R61). -/
theorem word_respFrame (sa fc : Byte) {ws : List Half} {i : Nat} (h : i < ws.length) :
    byteAt (respFrame sa fc ws) (3 + 2 * i) = hi (ws.getD i 0#16) ∧
      byteAt (respFrame sa fc ws) (4 + 2 * i) = lo (ws.getD i 0#16) := by
  constructor
  · rw [byteAt_respFrame_data sa fc (by omega), byteAt_wordBytes_even]
  · rw [show 4 + 2 * i = 3 + (2 * i + 1) by omega, byteAt_respFrame_data sa fc (by omega), byteAt_wordBytes_odd]

/-- The CRC field of a response frame stands after its data, low byte first, and is the CRC of all before it (R61, R63). -/
theorem crcField_respFrame (sa fc : Byte) (ws : List Half) :
    let f := respFrame sa fc ws
    let c := crc16 (f.take (3 + 2 * ws.length))
    byteAt f (3 + 2 * ws.length) = lo c ∧ byteAt f (4 + 2 * ws.length) = hi c := by
  have hlen : 3 + 2 * ws.length = (respBody sa fc ws).length := (length_respBody sa fc ws).symm
  have hsucc : 4 + 2 * ws.length = (respBody sa fc ws).length + 1 := by omega
  intro f c
  have hc : c = crc16 (respBody sa fc ws) := congrArg crc16 (hlen ▸ take_withCrc (respBody sa fc ws))
  rw [hc, hlen, hsucc]
  exact ⟨byteAt_withCrc_length _, byteAt_withCrc_length_succ _⟩

/-! ## The obligations about frames -/

/-- Settles O8: the request and the exception frame are lists of a fixed length; the response frame byte by byte. -/
theorem frameLayouts : Obligations.FrameLayouts := by
  refine ⟨fun _ _ _ _ => rfl, fun sa fc ws _ hcount => ?response, fun _ _ _ => rfl⟩
  case response =>
    exact ⟨length_respFrame sa fc ws, rfl, rfl, byteCount_respFrame sa fc hcount,
      fun _ hlt => word_respFrame sa fc hlt, crcField_respFrame sa fc ws⟩

/-- Settles O9: `crcOk_iff` for any frame, and a built frame is a body with its CRC field. -/
theorem crcFieldCoversEveryByteBeforeIt : Obligations.CrcFieldCoversEveryByteBeforeIt :=
  ⟨fun f _ => crcOk_iff f, fun _ _ _ _ => crcOk_withCrc _, fun _ _ _ => crcOk_withCrc _, fun _ _ _ => crcOk_withCrc _⟩

/-- Settles O10: the length of each body and two bytes of CRC field. -/
theorem frameLengths : Obligations.FrameLengths := by
  refine ⟨fun _ _ _ _ => length_withCrc _, fun _ _ _ => length_withCrc _, fun sa fc ws hmin hmax => ?response, by decide⟩
  case response =>
    rw [length_respFrame]
    omega

end Sys2Proof.Machine
end

