-- ==== Sys2Proof/Proofs/ReservedWords.lean ====
section
/-!
SUPPORT. A command word that R70 does not assign decodes to RESERVED (R71).
-/

namespace Sys2Proof.Machine

/-- A command word that is none of the six is reserved, whatever the operands (R71). -/
theorem decodeOperands_reserved {cmd : Byte} (c : CommandInput) (h : assignedCommand cmd = false) :
    decodeOperands cmd c = .ok (.reserved cmd) := by
  simp only [assignedCommand, Bool.or_eq_false_iff, decide_eq_false_iff_not] at h
  obtain ⟨⟨⟨⟨⟨hinit, hupd⟩, hread⟩, henc⟩, hdec⟩, hparse⟩ := h
  rw [decodeOperands, if_neg hinit, if_neg hupd, if_neg hread, if_neg henc, if_neg hdec, if_neg hparse]

theorem decode_reserved {c : CommandInput} {cmd : Byte} (hword : c.cmd = cmd.toNat) (h : assignedCommand cmd = false) :
    decode (.command c) = .ok (.reserved cmd) :=
  (decodeCommand_of_word hword).trans (decodeOperands_reserved c h)

/-- A step that accepts an encoded instruction runs it. -/
theorem step_present_of_decode {s : State} {e : Encoded} {i : Instr} {rest : List HostInput} (h : s.marked = false)
    (hp : s.pending = .present e :: rest) (hd : decode e = .ok i) : step s = exec i (s.withPending rest) := by
  rw [step_present h hp, accept, hd]

/-- Settles O43: the word decodes to RESERVED, and RESERVED is refused, on its own and in a step. -/
theorem everyOtherCommandWordIsReserved : Obligations.EveryOtherCommandWordIsReserved := by
  intro c s rest hfit hinit hupd hread henc hdec hparse
  have hword : c.cmd = (BitVec.ofNat 8 c.cmd).toNat := by
    rw [BitVec.toNat_ofNat, Nat.mod_eq_of_lt hfit]
  have hfree : assignedCommand (BitVec.ofNat 8 c.cmd) = false := by
    simp only [assignedCommand, Bool.or_eq_false_iff, decide_eq_false_iff_not, BitVec.toNat_eq, ← hword]
    exact ⟨⟨⟨⟨⟨hinit, hupd⟩, hread⟩, henc⟩, hdec⟩, hparse⟩
  have hd := decode_reserved hword hfree
  refine ⟨hd, exec_reserved _, fun hf hr hp => ?step⟩
  case step =>
    have hm : s.marked = false := by rw [State.marked, hf, hr]; rfl
    exact (step_present_of_decode hm hp hd).trans (exec_reserved _ _)

end Sys2Proof.Machine
end

