-- ==== Sys2Proof/Proofs/CrcAlgebra.lean ====
section
/-!
SUPPORT. The algebra of the CRC function (40_crc.md sections 1 and 3): the shift is linear over XOR and no two registers
shift to one; the byte step and the fold inherit both.
-/

namespace Sys2Proof.Machine

/-! ## The shift of R100 -/

/-- What a shift XORs in, by the bit shifted out. -/
def polyWhen (bit : Bool) : Half := if bit then Config.crcPoly else 0#16

theorem crcShift_eq (c : Half) : crcShift c = (c >>> 1) ^^^ polyWhen (c.getLsbD 0) := by
  unfold crcShift polyWhen
  split
  · rfl
  · exact BitVec.xor_zero.symm

theorem crcShift_of_even {c : Half} (h : c.getLsbD 0 = false) : crcShift c = c >>> 1 := by
  rw [crcShift_eq, h]
  exact BitVec.xor_zero

/-- The polynomial goes in for either of two shifted-out bits, and twice is not at all. -/
theorem polyWhen_xor (x y : Bool) : polyWhen (x ^^ y) = polyWhen x ^^^ polyWhen y := by
  cases x <;> cases y <;> rfl

theorem crcShift_xor (a b : Half) : crcShift (a ^^^ b) = crcShift a ^^^ crcShift b := by
  rw [crcShift_eq, crcShift_eq, crcShift_eq, BitVec.ushiftRight_xor_distrib, BitVec.getLsbD_xor, polyWhen_xor]
  ac_rfl

/-- The top bit tells which bit was shifted out: a right shift clears it, and the polynomial has it set. -/
theorem crcShift_getLsbD_top (c : Half) : (crcShift c).getLsbD 15 = c.getLsbD 0 := by
  have htop (bit : Bool) : (polyWhen bit).getLsbD 15 = bit := by cases bit <;> rfl
  rw [crcShift_eq, BitVec.getLsbD_xor, htop]
  simp

/-- Only the zero register shifts to zero: the bit shifted out was 0, so the other bits are all there is. -/
theorem eq_zero_of_crcShift_eq_zero {c : Half} (h : crcShift c = 0#16) : c = 0#16 := by
  have heven : c.getLsbD 0 = false := by rw [← crcShift_getLsbD_top, h]; rfl
  have hrest : c >>> 1 = 0#16 := (crcShift_of_even heven).symm.trans h
  apply BitVec.eq_of_getLsbD_eq
  intro i _
  cases i with
  | zero => exact heven
  | succ i => simpa [Nat.add_comm] using congrArg (·.getLsbD i) hrest

theorem crcShift_injective : Function.Injective crcShift := by
  intro a b h
  refine BitVec.xor_eq_zero_iff.1 (eq_zero_of_crcShift_eq_zero ?_)
  rw [crcShift_xor, h, BitVec.xor_self]

/-! ## Several shifts -/

theorem crcShifts_eq_iterate (n : Nat) (c : Half) : crcShifts n c = crcShift^[n] c := by
  induction n generalizing c with
  | zero => rfl
  | succ n ih => exact ih (crcShift c)

theorem crcShifts_xor (n : Nat) (a b : Half) : crcShifts n (a ^^^ b) = crcShifts n a ^^^ crcShifts n b := by
  induction n generalizing a b with
  | zero => rfl
  | succ n ih => rw [crcShifts, crcShift_xor, ih]; rfl

theorem crcShifts_injective (n : Nat) : Function.Injective (crcShifts n) := by
  rw [funext (crcShifts_eq_iterate n)]
  exact crcShift_injective.iterate n

/-- While only zeros are shifted out, the polynomial stays out. -/
theorem crcShifts_of_low_zero (n : Nat) {c : Half} (h : ∀ i < n, c.getLsbD i = false) : crcShifts n c = c >>> n := by
  induction n generalizing c with
  | zero => exact (BitVec.ushiftRight_zero c).symm
  | succ n ih =>
    have hnext : ∀ i < n, (c >>> 1).getLsbD i = false := fun i hi => by
      simpa [Nat.add_comm] using h (i + 1) (by omega)
    rw [crcShifts, crcShift_of_even (h 0 (by omega)), ih hnext, Nat.add_comm, BitVec.shiftRight_add]

/-! ## The bytes of the register -/

theorem zext16_xor (a b : Byte) : zext16 (a ^^^ b) = zext16 a ^^^ zext16 b := BitVec.setWidth_xor

theorem lo_xor (a b : Half) : lo (a ^^^ b) = lo a ^^^ lo b := BitVec.extractLsb'_xor

theorem hi_xor (a b : Half) : hi (a ^^^ b) = hi a ^^^ hi b := BitVec.extractLsb'_xor

theorem zext16_eq_be16 (b : Byte) : zext16 b = be16 0#8 b := by simp [be16, zext16]

@[simp] theorem lo_zext16 (b : Byte) : lo (zext16 b) = b := by rw [zext16_eq_be16, lo_be16]

@[simp] theorem hi_zext16 (b : Byte) : hi (zext16 b) = 0#8 := by rw [zext16_eq_be16, hi_be16]

theorem zext16_injective : Function.Injective zext16 := Function.LeftInverse.injective lo_zext16

theorem ushiftRight_eight (c : Half) : c >>> 8 = zext16 (hi c) := by
  apply BitVec.eq_of_toNat_eq
  simp only [hi, zext16, BitVec.toNat_ushiftRight, BitVec.toNat_setWidth, BitVec.extractLsb'_toNat]
  omega

theorem eq_of_hi_eq_of_lo_eq {a b : Half} (hhi : hi a = hi b) (hlo : lo a = lo b) : a = b := by
  rw [← be16_hi_lo a, hhi, hlo, be16_hi_lo]

/-- A register is its high byte in place, XORed with its low byte. -/
theorem be16_zero_xor_zext16 (c : Half) : be16 (hi c) 0#8 ^^^ zext16 (lo c) = c :=
  eq_of_hi_eq_of_lo_eq (by rw [hi_xor, hi_be16, hi_zext16, BitVec.xor_zero])
    (by rw [lo_xor, lo_be16, lo_zext16, BitVec.zero_xor])

/-! ## The byte step of R100 -/

/-- R108: the byte step is linear over XOR. -/
theorem crcStep_xor (c c' : Half) (b b' : Byte) : crcStep (c ^^^ c') (b ^^^ b') = crcStep c b ^^^ crcStep c' b' := by
  rw [crcStep, crcStep, crcStep, ← crcShifts_xor, zext16_xor]
  congr 1
  ac_rfl

/-- Different registers stay different under one byte. -/
theorem crcStep_left_injective (b : Byte) : Function.Injective (crcStep · b) := fun _ _ h =>
  (BitVec.xor_left_inj (zext16 b)).1 (crcShifts_injective 8 h)

/-- Different bytes take one register to different ones. -/
theorem crcStep_right_injective (c : Half) : Function.Injective (crcStep c) := fun _ _ h =>
  zext16_injective ((BitVec.xor_right_inj c).1 (crcShifts_injective 8 h))

theorem crcShifts_zext16 (b : Byte) : crcShifts 8 (zext16 b) = crcTable b := by
  rw [crcTable, crcStep, BitVec.zero_xor]

theorem crcTable_zero : crcTable 0#8 = 0#16 := by decide

/-- A high byte alone only moves down. -/
theorem crcShifts_be16_zero (b : Byte) : crcShifts 8 (be16 b 0#8) = zext16 b := by
  have hlow : ∀ i < 8, (be16 b 0#8).getLsbD i = false := fun i hi => by simp [be16, zext16, hi]
  rw [crcShifts_of_low_zero 8 hlow, ushiftRight_eight, hi_be16]

/-- R107: the high byte of the register only moves down; what is XORed in is decided by the low byte alone. -/
theorem crcTableStep_eq_crcStep (c : Half) (b : Byte) : crcTableStep c b = crcStep c b := by
  have hhigh : hi (c ^^^ zext16 b) = hi c := by rw [hi_xor, hi_zext16, BitVec.xor_zero]
  calc crcTableStep c b = crcShifts 8 (be16 (hi c) 0#8) ^^^ crcShifts 8 (zext16 (lo (c ^^^ zext16 b))) := by
        rw [crcTableStep, ushiftRight_eight, crcShifts_be16_zero, crcShifts_zext16]
    _ = crcShifts 8 (c ^^^ zext16 b) := by rw [← crcShifts_xor, ← hhigh, be16_zero_xor_zext16]

/-- R111: folding the register's own low byte moves the high byte down. -/
theorem crcStep_lo (c : Half) : crcStep c (lo c) = zext16 (hi c) := by
  rw [← crcTableStep_eq_crcStep, crcTableStep, lo_xor, lo_zext16, BitVec.xor_self, crcTable_zero,
    BitVec.xor_zero, ushiftRight_eight]

/-! ## The fold of R101 -/

theorem crcFold_left_injective (s : List Byte) : Function.Injective (crcFold · s) := by
  induction s with
  | nil => exact fun _ _ h => h
  | cons b s ih => exact ih.comp (crcStep_left_injective b)

theorem crc16_append (s t : List Byte) : crc16 (s ++ t) = crcFold (crc16 s) t := by
  rw [crc16_eq_fold, crc16_eq_fold, crcFold_append]

/-- Two messages that differ in one byte have different CRCs. -/
theorem crc16_append_cons_inj {s t : List Byte} {x y : Byte} (h : crc16 (s ++ x :: t) = crc16 (s ++ y :: t)) :
    x = y := by
  rw [crc16_append, crc16_append] at h
  exact crcStep_right_injective _ (crcFold_left_injective t h)

/-- An error pattern is folded beside the message (R108). -/
theorem crcFold_zipWith_xor (c c' : Half) {s d : List Byte} (h : s.length = d.length) :
    crcFold (c ^^^ c') (List.zipWith (fun x y => x ^^^ y) s d) = crcFold c s ^^^ crcFold c' d := by
  induction s generalizing c c' d with
  | nil => obtain rfl := List.length_eq_zero_iff.1 h.symm; rfl
  | cons x s ih =>
    cases d with
    | nil => cases h
    | cons y d =>
      rw [List.zipWith_cons_cons, crcFold_cons, crcStep_xor]
      exact ih _ _ (Nat.succ.inj h)

/-- What an error pattern does to a message's CRC is the pattern's own fold from zero. -/
theorem crc16_zipWith_xor {s d : List Byte} (h : s.length = d.length) :
    crc16 (List.zipWith (fun x y => x ^^^ y) s d) ^^^ crc16 s = crcFold 0#16 d := by
  have hfold := crcFold_zipWith_xor Config.crcInitValue 0#16 h
  rw [BitVec.xor_zero, ← crc16_eq_fold, ← crc16_eq_fold] at hfold
  rw [hfold, BitVec.xor_comm, ← BitVec.xor_assoc, BitVec.xor_self, BitVec.zero_xor]

/-! ## The residue of R106 -/

/-- Folding its own two bytes, low byte first, clears the register. -/
theorem crcFold_littleEndian (c : Half) : crcFold c (littleEndian c) = 0#16 := by
  have hlow := crcStep_lo (zext16 (hi c))
  rw [lo_zext16, hi_zext16] at hlow
  calc crcFold c (littleEndian c) = crcStep (crcStep c (lo c)) (hi c) := rfl
    _ = zext16 0#8 := by rw [crcStep_lo, hlow]

/-- No other register is cleared by those two bytes. -/
theorem crc16_append_littleEndian (body : List Byte) (c : Half) :
    crc16 (body ++ littleEndian c) = 0#16 ↔ crc16 body = c := by
  rw [crc16_append, ← crcFold_littleEndian c]
  exact (crcFold_left_injective _).eq_iff

/-- A frame of at least two bytes is a body and a CRC field. -/
theorem exists_append_littleEndian {f : List Byte} (h : 2 ≤ f.length) : ∃ body c, f = body ++ littleEndian c := by
  have hlen : (f.drop (f.length - 2)).length = 2 := by rw [List.length_drop]; omega
  obtain ⟨l, m, hfield⟩ := List.length_eq_two.1 hlen
  refine ⟨f.take (f.length - 2), be16 m l, ?_⟩
  rw [littleEndian, lo_be16, hi_be16, ← hfield, List.take_append_drop]

/-- R106: `CrcOk` says that the CRC over all bytes is zero. -/
theorem crcOk_iff_residue {f : List Byte} (h : 2 ≤ f.length) : crcOk f = true ↔ crc16 f = 0#16 := by
  obtain ⟨body, c, rfl⟩ := exists_append_littleEndian h
  rw [crcOk_append, decide_eq_true_iff, crc16_append_littleEndian]

/-- R109: two frames that differ in one byte are not both correct, since both would have residue zero. -/
theorem crcOk_of_changed_byte {s t : List Byte} {x y : Byte} (hlen : 2 ≤ (s ++ x :: t).length)
    (hok : crcOk (s ++ x :: t) = true) (hne : x ≠ y) : crcOk (s ++ y :: t) = false := by
  have hlen' : 2 ≤ (s ++ y :: t).length := by simpa using hlen
  refine Bool.eq_false_iff.2 fun hbad => hne (crc16_append_cons_inj (s := s) (t := t) ?_)
  rw [(crcOk_iff_residue hlen).1 hok, (crcOk_iff_residue hlen').1 hbad]

/-- A flip of one bit changes one byte. -/
theorem flipBit_eq {f : List Byte} {i : Nat} (j : Nat) (h : i < f.length) :
    Claims.flipBit f i j = f.take i ++ (f[i] ^^^ (1#8 <<< j)) :: f.drop (i + 1) := by
  rw [Claims.flipBit, List.set_eq_take_append_cons_drop, if_pos h, List.getD_eq_getElem _ _ h]

theorem xor_bit_ne (b : Byte) {j : Nat} (h : j < 8) : b ^^^ (1#8 <<< j) ≠ b := by
  intro heq
  have hzero : (1#8 <<< j) = 0#8 := (BitVec.xor_right_inj b).1 (heq.trans BitVec.xor_zero.symm)
  simpa [h] using congrArg (·.getLsbD j) hzero

/-! ## The obligations about the CRC function -/

/-- Settles O1: the eight shifts are the iterate of the one. -/
theorem crcByteStepIsEightReflectedShifts : Obligations.CrcByteStepIsEightReflectedShifts :=
  ⟨fun c b => crcShifts_eq_iterate 8 (c ^^^ zext16 b), by decide, by decide⟩

/-- Settles O2: the fold is the definition; the rule's sequences and the check value are computed. -/
theorem crc16FoldsFromInitialValue : Obligations.Crc16FoldsFromInitialValue :=
  ⟨fun _ => rfl, by decide +kernel⟩

/-- Settles O3: folding the CRC's own bytes clears the register, and nothing else does. -/
theorem residueOfACorrectFrameIsZero : Obligations.ResidueOfACorrectFrameIsZero :=
  ⟨fun s => (crc16_append_littleEndian s (crc16 s)).2 rfl, fun _ h => crcOk_iff_residue h, by decide +kernel⟩

/-- Settles O4: the two byte steps are one function, so the two folds are. -/
theorem tableDrivenGeneratorIsEquivalent : Obligations.TableDrivenGeneratorIsEquivalent := by
  have hstep : crcTableStep = crcStep := funext₂ crcTableStep_eq_crcStep
  exact ⟨fun c b => (crcTableStep_eq_crcStep c b).symm, fun c s => by rw [hstep], by decide⟩

/-- Settles O5: linearity of the byte step, and the pattern's own fold as its effect on either message. -/
theorem crcIsLinearOverXor : Obligations.CrcIsLinearOverXor :=
  ⟨crcStep_xor, fun _ _ _ h h' => (crc16_zipWith_xor h).trans (crc16_zipWith_xor h').symm⟩

/-- Settles O6: the flip changes one byte of a correct frame. -/
theorem everySingleBitFlipIsDetected : Obligations.EverySingleBitFlipIsDetected := by
  intro f i j hlen hok hi hj
  have hsplit : f.take i ++ f[i] :: f.drop (i + 1) = f := by rw [List.getElem_cons_drop, List.take_append_drop]
  rw [flipBit_eq j hi]
  exact crcOk_of_changed_byte (by rwa [hsplit]) (by rwa [hsplit]) (xor_bit_ne f[i] hj).symm

end Sys2Proof.Machine
end

