-- ==== Sys2Proof/Proofs/AppendedZero.lean ====
section
/-!
SUPPORT. One zero byte appended to a correct frame (R111): the CRC comparison passes it, and the checks of the length,
which come after that comparison in DEC_RESP and before it in PARSE_REQ, catch it.
-/

namespace Sys2Proof.Machine

/-- A zero byte folded into the zero register leaves it zero, so the residue stays what it is. -/
theorem crcOk_append_zero {f : List Byte} (h : 2 ≤ f.length) (hok : crcOk f = true) :
    crcOk (f ++ [0x00#8]) = true := by
  rw [crcOk_iff_residue (by rw [List.length_append]; omega), crc16_append, (crcOk_iff_residue h).1 hok]
  exact crcTable_zero

theorem byteAt_append_zero {f : List Byte} {i : Nat} (h : i < f.length) : byteAt (f ++ [0x00#8]) i = byteAt f i :=
  byteAt_append_left f _ i h

/-! ## DEC_RESP past each of its checks (R130) -/

/-- Past the slave echo, DEC_RESP goes by bit 7 of the function byte. -/
theorem decRespResult_of_crcOk {f : List Byte} (m : ExcMatch) (fc : Byte) (q : Half) (hlen : 5 ≤ f.length)
    (hok : crcOk f = true) :
    decRespResult m f (byteAt f 0) fc q =
      if (byteAt f 1).msb then exceptionResult m f fc
      else if byteAt f 1 ≠ fc then .frameError .functionMismatch
      else responseDataResult f q := by
  simp [decRespResult, Nat.not_lt.2 hlen, hok]

theorem exceptionResult_of_length_ne {m : ExcMatch} {f : List Byte} {fc : Byte}
    (hrec : recognisedException m fc (byteAt f 1) = true) (hlen : f.length ≠ 5) :
    exceptionResult m f fc = .frameError .wrongLength := by
  simp [exceptionResult, hrec, hlen]

theorem responseDataResult_of_length_ne {f : List Byte} {q : Half} (hcount : (byteAt f 2).toNat = 2 * q.toNat)
    (hlen : f.length ≠ 5 + 2 * q.toNat) : responseDataResult f q = .frameError .wrongLength := by
  simp [responseDataResult, hcount, hlen]

theorem exceptionResult_ne_ok (m : ExcMatch) (f : List Byte) (fc : Byte) (p : Payload) :
    exceptionResult m f fc ≠ .ok p := by
  unfold exceptionResult
  repeat' split
  all_goals simp

/-- The function byte of a frame whose words DEC_RESP returns has bit 7 clear. -/
theorem function_msb_of_words {m : ExcMatch} {f : List Byte} {fc : Byte} {q : Half} {ws : List Half}
    (hlen : 5 ≤ f.length) (hok : crcOk f = true)
    (h : decRespResult m f (byteAt f 0) fc q = .ok (.words ws)) : (byteAt f 1).msb = false := by
  rw [decRespResult_of_crcOk m fc q hlen hok] at h
  refine Bool.eq_false_iff.2 fun hmsb => ?_
  rw [if_pos hmsb] at h
  exact exceptionResult_ne_ok _ _ _ _ h

/-- A frame that DEC_RESP accepts or reports as an exception, with one zero byte more, passes every check up to the
length. -/
theorem decRespResult_append_zero {m : ExcMatch} {f : List Byte} {sa fc : Byte} {q : Half}
    (h : ∀ e, decRespResult m f sa fc q ≠ .frameError e) :
    decRespResult m (f ++ [0x00#8]) sa fc q = .frameError .wrongLength := by
  obtain ⟨e, he, -⟩ | ⟨-, hexc, hok, rfl, hmsb, hrec⟩ | ⟨hwords, hok, rfl, rfl, hcount, hlen⟩ :=
    decRespResult_cases m f sa fc q
  · exact absurd he (h e)
  · have hlen : f.length = 5 := hexc
    have h1 := byteAt_append_zero (f := f) (i := 1) (by omega)
    rw [← byteAt_append_zero (by omega),
      decRespResult_of_crcOk m fc q (by simp [hlen]) (crcOk_append_zero (by omega) hok), h1, if_pos hmsb]
    exact exceptionResult_of_length_ne (by rwa [h1]) (by simp [hlen])
  · have hmsb := function_msb_of_words (by omega) hok hwords
    have h1 := byteAt_append_zero (f := f) (i := 1) (by omega)
    have h2 := byteAt_append_zero (f := f) (i := 2) (by omega)
    rw [← byteAt_append_zero (i := 0) (by omega),
      decRespResult_of_crcOk m _ q (by simp; omega) (crcOk_append_zero (by omega) hok), h1, if_neg (by simp [hmsb]),
      if_neg (by simp)]
    exact responseDataResult_of_length_ne (by rwa [h2]) (by simp [hlen])

theorem parseReqResult_of_length_ne {f : List Byte} (h : f.length ≠ Config.reqLen) :
    parseReqResult f = .frameError .wrongLength := if_pos h

/-- Settles O7: the low-byte law, the residue of the longer frame, and the length checks. -/
theorem appendedZeroPassesCrcButNotLength : Obligations.AppendedZeroPassesCrcButNotLength := by
  refine ⟨crcStep_lo, fun _ hlen hok => crcOk_append_zero hlen hok, fun m f sa fc q ws h => ?words,
    fun m f sa fc q code h => ?exception, fun f p h => ?request⟩
  case words => exact decRespResult_append_zero (by simp [h])
  case exception => exact decRespResult_append_zero (by simp [h])
  case request =>
    obtain ⟨e, he, -⟩ | ⟨-, hlen, -⟩ := parseReqResult_cases f
    · rw [he] at h; cases h
    · exact parseReqResult_of_length_ne (by rw [List.length_append, hlen]; decide)

end Sys2Proof.Machine
end

