-- ==== Sys2Proof/Proofs/CrcCommands.lean ====
section
/-!
SUPPORT. What the three CRC commands return (R102 to R104), and what sequences of them do to the accumulator (R105,
R73).
-/

namespace Sys2Proof.Machine

open Claims

/-! ## The command words (R70) -/

theorem commandWord_crcInit : CommandWord 0x01 .crcInit := ⟨_, rfl, rfl, rfl⟩

theorem commandWord_crcUpdate (b : Byte) : CommandWord 0x02 (.crcUpdate b) := by
  refine ⟨_, rfl, rfl, (decodeCommand_of_word rfl).trans ?_⟩
  rw [decodeOperands_crcUpdate, operand_toNat, bind_ok]

theorem commandWord_crcRead : CommandWord 0x03 .crcRead := ⟨_, rfl, rfl, rfl⟩

/-! ## What each command returns -/

theorem returns_crcInit (s : State) :
    Returns .crcInit s { s with crc := Config.crcInitValue, crcValid := true } (.ok .none) :=
  ⟨_, exec_crcInit s, rfl⟩

theorem returns_crcUpdate (b : Byte) {s : State} (h : s.crcValid = true) :
    Returns (.crcUpdate b) s { s with crc := crcStep s.crc b } (.ok .none) := ⟨_, exec_crcUpdate_valid b h, rfl⟩

theorem returns_crcRead {s : State} (h : s.crcValid = true) : Returns .crcRead s s (.ok (.crc s.crc)) :=
  ⟨_, exec_crcRead_valid h, rfl⟩

/-! ## Sequences of commands -/

theorem execSeq_cons_of_next {i : Instr} {is : List Instr} {s t : State} (h : exec i s = .next t) :
    execSeq (i :: is) s = execSeq is t := by
  rw [execSeq, h]

/-- One CRC_UPDATE a byte folds the bytes into a valid `crc`, with an Ok for each; what comes after them goes on from
there. -/
theorem execSeq_crcUpdates (bs : List Byte) (is : List Instr) {s : State} (h : s.crcValid = true) :
    ∃ t : State, execSeq (bs.map .crcUpdate ++ is) s = execSeq is t ∧
      t = { s with
        crc := crcFold s.crc bs
        buf := t.buf
        len := t.len
        results := s.results ++ List.replicate bs.length (.ok .none) } := by
  induction bs generalizing s with
  | nil => exact ⟨s, rfl, by simp⟩
  | cons b bs ih =>
    obtain ⟨u, hu, hstate⟩ := returns_crcUpdate b h
    obtain ⟨t, ht, hfold⟩ := ih (s := u) (by rw [hstate]; exact h)
    refine ⟨t, (execSeq_cons_of_next hu).trans ht, ?_⟩
    rw [hfold, hstate]
    simp [List.replicate_succ]

/-- CRC_INIT and one CRC_UPDATE a byte leave CRC16 of the bytes in `crc` (R105). -/
theorem execSeq_crcInit_crcUpdates (bs : List Byte) (is : List Instr) (s : State) :
    ∃ t : State, execSeq (.crcInit :: (bs.map .crcUpdate ++ is)) s = execSeq is t ∧
      t = { s with
        crc := crc16 bs
        crcValid := true
        buf := t.buf
        len := t.len
        results := s.results ++ List.replicate (bs.length + 1) (.ok .none) } := by
  obtain ⟨u, hu, hstate⟩ := returns_crcInit s
  obtain ⟨t, ht, hfold⟩ := execSeq_crcUpdates bs is (s := u) (by rw [hstate])
  refine ⟨t, (execSeq_cons_of_next hu).trans ht, ?_⟩
  rw [hfold, hstate, crc16_eq_fold]
  simp [List.replicate_succ]

/-! ## The obligations about the CRC commands -/

/-- Settles O12: what CRC_INIT returns does not depend on the state, so a second one changes no register. -/
theorem crcInitStartsANewCrc : Obligations.CrcInitStartsANewCrc :=
  ⟨commandWord_crcInit, fun s => ⟨returns_crcInit s, _, _, exec_crcInit s, exec_crcInit _, rfl, rfl⟩⟩

/-- Settles O13: the command word, the two cases of `crc_valid`, and the rule's values. -/
theorem crcUpdateFoldsOneByte : Obligations.CrcUpdateFoldsOneByte :=
  ⟨commandWord_crcUpdate, fun b _ h => returns_crcUpdate b h, fun b _ h => exec_crcUpdate_invalid b h,
    by decide, by decide, by decide, by decide⟩

/-- Settles O14: the command word, the two cases of `crc_valid`, and CRC_READ after CRC_INIT with no byte and with
six. -/
theorem crcReadReturnsTheCrc : Obligations.CrcReadReturnsTheCrc := by
  refine ⟨commandWord_crcRead, fun _ h => returns_crcRead h, fun _ h => exec_crcRead_invalid h,
    fun s t h => ?afterInit, fun s => ?afterSixBytes⟩
  case afterInit =>
    rw [exec_crcInit] at h
    cases h
    exact returns_crcRead rfl
  case afterSixBytes =>
    have hcrc : crc16 [0x01#8, 0x03#8, 0x00#8, 0x00#8, 0x00#8, 0x01#8] = 0x0A84#16 := by decide +kernel
    obtain ⟨t, ht, hstate⟩ := execSeq_crcInit_crcUpdates [0x01#8, 0x03#8, 0x00#8, 0x00#8, 0x00#8, 0x01#8] [] s
    have hread : Returns .crcRead t t (.ok (.crc t.crc)) := returns_crcRead (by rw [hstate])
    rw [show t.crc = 0x0A84#16 by rw [hstate]; exact hcrc] at hread
    exact ⟨t, ht, hread⟩

/-- Settles O15: CRC_INIT and the CRC_UPDATEs by `execSeq_crcInit_crcUpdates`, then CRC_READ of what they leave. -/
theorem accumulatorLaw : Obligations.AccumulatorLaw := by
  intro bs s
  obtain ⟨t, ht, hstate⟩ := execSeq_crcInit_crcUpdates bs [.crcRead] s
  obtain ⟨u, hu, hread⟩ := returns_crcRead (s := t) (by rw [hstate])
  refine ⟨rfl, u, ht.trans (execSeq_cons_of_next hu), ?_⟩
  rw [hread, hstate]

end Sys2Proof.Machine
end

