-- ==== Sys2Proof/Proofs/RequestFrames.lean ====
section
/-!
SUPPORT. ENC_REQ (R120 to R123): the result it returns, the frames it builds, and PARSE_REQ as its inverse.
-/

namespace Sys2Proof.Machine

open Claims

/-! ## The claims' words for the operand checks -/

theorem blockCode_iff (fc : Byte) : BlockCode fc ↔ supportedFunction fc = true := (supportedFunction_iff fc).symm

theorem inRange_iff (q : Half) : InRange q ↔ quantityInRange q = true := (quantityInRange_iff q).symm

/-! ## What ENC_REQ returns -/

theorem commandWord_encReq (sa fc : Byte) (ra q : Half) : CommandWord 0x10 (.encReq sa fc ra q) := by
  refine ⟨_, rfl, rfl, (decodeCommand_of_word rfl).trans ?_⟩
  simp only [decodeOperands_encReq, operand_toNat, bind_ok]

theorem returns_encReq (sa : Byte) {fc : Byte} (ra q : Half) (s : State) (h : supportedFunction fc = true) :
    Returns (.encReq sa fc ra q) s s (encReqResult sa fc ra q) :=
  ⟨_, (exec_encReq sa fc ra q s).trans (if_pos h), rfl⟩

theorem exec_encReq_of_unsupported (sa : Byte) {fc : Byte} (ra q : Half) (s : State)
    (h : ¬ supportedFunction fc = true) :
    exec (.encReq sa fc ra q) s = .refused .unsupportedFunction :=
  (exec_encReq sa fc ra q s).trans (if_neg h)

theorem encReqResult_of_inRange (sa fc : Byte) (ra : Half) {q : Half} (h : quantityInRange q = true) :
    encReqResult sa fc ra q = .ok (.request (reqFrame sa fc ra q)) := if_pos h

theorem encReqResult_of_not_inRange (sa fc : Byte) (ra : Half) {q : Half} (h : ¬ quantityInRange q = true) :
    encReqResult sa fc ra q = .encodingError .quantityOutOfRange := if_neg h

/-- ENC_REQ of operands it takes returns their request frame (R120). -/
theorem returns_encReq_reqFrame (sa : Byte) {fc : Byte} (ra : Half) {q : Half} (s : State)
    (hf : supportedFunction fc = true) (hq : quantityInRange q = true) :
    Returns (.encReq sa fc ra q) s s (.ok (.request (reqFrame sa fc ra q))) :=
  encReqResult_of_inRange sa fc ra hq ▸ returns_encReq sa ra q s hf

/-- A frame that ENC_REQ returns is the request frame of its operands. -/
theorem eq_reqFrame_of_encReqResult {sa fc : Byte} {ra q : Half} {out : List Byte}
    (h : encReqResult sa fc ra q = .ok (.request out)) : out = reqFrame sa fc ra q := by
  by_cases hq : quantityInRange q = true
  · rw [encReqResult_of_inRange sa fc ra hq] at h
    cases h
    rfl
  · rw [encReqResult_of_not_inRange sa fc ra hq] at h
    cases h

/-- A command adds one result, so which one it added can be read off. -/
theorem State.releaseFrame_emit_results_eq_iff (s : State) (r r' : Result) :
    (s.releaseFrame.emit r).results = s.results ++ [r'] ↔ r = r' := by
  simp

/-! ## A correct frame of 8 bytes is a request frame -/

/-- The residue of a body with its own CRC field (R106). -/
theorem crc16_withCrc (body : List Byte) : crc16 (withCrc body) = 0#16 :=
  (crc16_append_littleEndian body (crc16 body)).2 rfl

/-- A frame with a correct CRC field is a body with its CRC field (R63). -/
theorem exists_eq_withCrc_of_crcOk {f : List Byte} (hlen : 2 ≤ f.length) (hok : crcOk f = true) :
    ∃ body, f = withCrc body := by
  obtain ⟨body, c, rfl⟩ := exists_append_littleEndian hlen
  rw [crcOk_append, decide_eq_true_iff] at hok
  exact ⟨body, by rw [withCrc, hok]⟩

/-- Six bytes are the request body of the fields they hold (R60, R66). -/
theorem eq_reqBody_of_length {body : List Byte} (h : body.length = 6) :
    body = reqBody (byteAt body 0) (byteAt body 1) (frameRegAddr body) (frameQuantity body) := by
  match body, h with
  | [_, _, _, _, _, _], _ => simp [reqBody, bigEndian, byteAt]

/-- A correct frame of 8 bytes is the request frame of the fields it holds (R60, R66). -/
theorem eq_reqFrame_of_crcOk {f : List Byte} (hlen : f.length = 8) (hok : crcOk f = true) :
    f = reqFrame (byteAt f 0) (byteAt f 1) (frameRegAddr f) (frameQuantity f) := by
  obtain ⟨body, rfl⟩ := exists_eq_withCrc_of_crcOk (by omega) hok
  have hbody : body.length = 6 := by simpa using hlen
  have hbyte (i : Nat) (hi : i < 6) : byteAt (withCrc body) i = byteAt body i :=
    byteAt_withCrc_of_lt (by omega)
  simp only [frameRegAddr, frameQuantity, hbyte, Nat.reduceLT]
  exact congrArg withCrc (eq_reqBody_of_length hbody)

/-! ## What PARSE_REQ returns -/

theorem returns_parseReq_presented {f : List Byte} (t : State) (h : f.length ≤ Config.frameBufBytes) :
    Returns (.parseReq (.presented f)) t t (parseReqResult f) := by
  have hexec := exec_parseReq (buf := .presented f) (s := t) h
  rw [State.present_presented, State.frame_fill] at hexec
  exact ⟨_, hexec, rfl⟩

/-- PARSE_REQ reads the fields of a request frame back (R123). -/
theorem parseReqResult_reqFrame (sa : Byte) {fc : Byte} (ra : Half) {q : Half} (hf : supportedFunction fc = true)
    (hq : quantityInRange q = true) : parseReqResult (reqFrame sa fc ra q) = .ok (.fields sa fc ra q) := by
  have hlen : (reqFrame sa fc ra q).length = Config.reqLen := length_withCrc _
  have hok : crcOk (reqFrame sa fc ra q) = true := crcOk_withCrc _
  have hfunction : frameFunction (reqFrame sa fc ra q) = fc := rfl
  have hslave : frameSlave (reqFrame sa fc ra q) = sa := rfl
  have hregAddr : frameRegAddr (reqFrame sa fc ra q) = ra := be16_hi_lo ra
  have hquantity : frameQuantity (reqFrame sa fc ra q) = q := be16_hi_lo q
  simp [parseReqResult, hlen, hok, hfunction, hslave, hregAddr, hquantity, hf, hq]

/-- PARSE_REQ accepts the request frames of supported operands and no other bytes (R123, R151). -/
theorem parseReqResult_eq_fields_iff (f : List Byte) (sa fc : Byte) (ra q : Half) :
    parseReqResult f = .ok (.fields sa fc ra q) ↔
      supportedFunction fc = true ∧ quantityInRange q = true ∧ f = reqFrame sa fc ra q := by
  constructor
  · intro h
    obtain ⟨e, he, -⟩ | ⟨hr, hlen, hok, hf, hq⟩ := parseReqResult_cases f
    · rw [he] at h
      cases h
    · rw [hr] at h
      cases h
      exact ⟨hf, hq, eq_reqFrame_of_crcOk hlen hok⟩
  · rintro ⟨hf, hq, rfl⟩
    exact parseReqResult_reqFrame sa ra hf hq

/-! ## The obligations about ENC_REQ -/

/-- Settles O24: what PARSE_REQ accepts is exactly ENC_REQ's frame of the fields (`parseReqResult_eq_fields_iff`). -/
theorem encReqAndParseReqAreInverse : Obligations.EncReqAndParseReqAreInverse := by
  refine ⟨fun sa fc ra q s hf hq => ?parseOfEnc, fun f s t u sa fc ra q h hres => ?encOfParse⟩
  case parseOfEnc =>
    rw [blockCode_iff] at hf
    rw [inRange_iff] at hq
    have hfits : (reqFrame sa fc ra q).length ≤ Config.frameBufBytes := by
      rw [reqFrame, length_withCrc, length_reqBody]
      decide
    exact ⟨_, returns_encReq_reqFrame sa ra s hf hq, fun t =>
      (parseReqResult_eq_fields_iff _ sa fc ra q).2 ⟨hf, hq, rfl⟩ ▸ returns_parseReq_presented t hfits⟩
  case encOfParse =>
    obtain ⟨-, rfl⟩ := exec_parseReq_cases h
    rw [State.releaseFrame_emit_results_eq_iff, State.present_presented, State.frame_fill,
      parseReqResult_eq_fields_iff] at hres
    obtain ⟨hf, hq, rfl⟩ := hres
    exact returns_encReq_reqFrame sa ra s hf hq

/-- Settles O23: the frame is a body with its CRC field. -/
theorem encReqFramesHaveCorrectCrc : Obligations.EncReqFramesHaveCorrectCrc := by
  intro sa fc ra q s t out h hres
  obtain ⟨-, rfl⟩ := exec_encReq_cases h
  rw [State.releaseFrame_emit_results_eq_iff] at hres
  obtain rfl := eq_reqFrame_of_encReqResult hres
  exact ⟨crcOk_withCrc _, crc16_withCrc _⟩

/-- Settles O20: the command word, the two operand checks, and the layout of the request frame by definition. -/
theorem encReqBuildsTheRequestFrame : Obligations.EncReqBuildsTheRequestFrame := by
  intro sa fc ra q s
  rw [blockCode_iff, inRange_iff]
  refine ⟨commandWord_encReq sa fc ra q, exec_encReq_of_unsupported sa ra q s, fun hf hq => ?error,
    fun hf hq => ?frame⟩
  case error => exact encReqResult_of_not_inRange sa fc ra hq ▸ returns_encReq sa ra q s hf
  case frame => exact returns_encReq_reqFrame sa ra s hf hq

/-- Settles O22: the function code alone decides between the refusal and `encReqResult`, in which no state stands. -/
theorem encReqIsPure : Obligations.EncReqIsPure := by
  intro sa fc ra q
  by_cases hf : supportedFunction fc = true
  · exact .inl ⟨encReqResult sa fc ra q, fun s => returns_encReq sa ra q s hf⟩
  · exact .inr fun s => exec_encReq_of_unsupported sa ra q s hf

end Sys2Proof.Machine
end

