-- ==== Sys2Proof/Proofs/DecResp.lean ====
section
/-!
SUPPORT. DEC_RESP (R130 to R141): what the command returns or refuses, what the checks of its result say one by one, and
the responses it accepts.
-/

namespace Sys2Proof.Machine

open Claims

/-! ## The result a command returns -/

/-- The result a completed command returns is the one it emits, and no other. -/
theorem returns_iff_of_exec {i : Instr} {s : State} {r r' : Result} (h : exec i s = .next (s.releaseFrame.emit r')) :
    Returns i s s r ↔ r' = r := by
  constructor
  · rintro ⟨u, hu, hstate⟩
    rw [h] at hu
    cases hu
    exact (s.releaseFrame_emit_results_eq_iff r' r).1 (congrArg State.results hstate)
  · rintro rfl
    exact ⟨_, h, rfl⟩

theorem commandWord_decResp {buf : BufOperand} (sa fc : Byte) (q : Half) (h : buf.wf = true) :
    CommandWord 0x20 (.decResp buf sa fc q) := by
  refine ⟨_, rfl, rfl, (decodeCommand_of_word rfl).trans ?_⟩
  simp only [decodeOperands_decResp, bufOperand_toInput h, operand_toNat, bind_ok]

/-! ## What DEC_RESP refuses and what it returns -/

section
variable {buf : BufOperand} {fc : Byte} {q : Half} {s : State}

theorem exec_decResp_of_unsupported (sa : Byte) (q : Half) (hl : (s.present buf).len ≤ Config.frameBufBytes)
    (hf : ¬ supportedFunction fc = true) : exec (.decResp buf sa fc q) s = .refused .unsupportedFunction := by
  simp only [exec, execDecResp]
  rw [withFrameOperand_of_le _ hl]
  simp [hf]

theorem exec_decResp_of_not_inRange (sa : Byte) (hl : (s.present buf).len ≤ Config.frameBufBytes)
    (hf : supportedFunction fc = true) (hq : ¬ quantityInRange q = true) :
    exec (.decResp buf sa fc q) s = .refused .expectedQuantityOutOfRange := by
  simp only [exec, execDecResp]
  rw [withFrameOperand_of_le _ hl]
  simp [hf, hq]

/-- DEC_RESP of operands it takes returns `decRespResult` of the presented frame, and nothing else. -/
theorem returns_decResp_iff (sa : Byte) (r : Result) (hl : (s.present buf).len ≤ Config.frameBufBytes)
    (hf : supportedFunction fc = true) (hq : quantityInRange q = true) :
    Returns (.decResp buf sa fc q) s s r ↔ decRespResult Config.excMatch (s.present buf).frame sa fc q = r :=
  returns_iff_of_exec (exec_decResp sa hl hf hq)

theorem returns_decResp (sa : Byte) (hl : (s.present buf).len ≤ Config.frameBufBytes)
    (hf : supportedFunction fc = true) (hq : quantityInRange q = true) :
    Returns (.decResp buf sa fc q) s s (decRespResult Config.excMatch (s.present buf).frame sa fc q) :=
  (returns_decResp_iff sa _ hl hf hq).2 rfl

/-- The same for a frame presented with the command. -/
theorem returns_decResp_presented_iff {f : List Byte} (sa : Byte) (r : Result) (s : State)
    (hl : f.length ≤ Config.frameBufBytes) (hf : supportedFunction fc = true) (hq : quantityInRange q = true) :
    Returns (.decResp (.presented f) sa fc q) s s r ↔ decRespResult Config.excMatch f sa fc q = r := by
  rw [returns_decResp_iff (buf := .presented f) sa r hl hf hq, State.present_presented, State.frame_fill]

end

/-- What a returned result says of the operands: they were not refused, and the result is theirs. -/
theorem exec_decResp_result {buf : BufOperand} {sa fc : Byte} {q : Half} {s u : State} {r : Result}
    (h : exec (.decResp buf sa fc q) s = .next u) (hr : u.results = s.results ++ [r]) :
    (s.present buf).len ≤ Config.frameBufBytes ∧ supportedFunction fc = true ∧ quantityInRange q = true ∧
      decRespResult Config.excMatch (s.present buf).frame sa fc q = r := by
  obtain ⟨hl, hf, hq, rfl⟩ := exec_decResp_cases h
  exact ⟨hl, hf, hq, (s.releaseFrame_emit_results_eq_iff _ r).1 hr⟩

/-- The same for a frame presented with the command, of which `Returns` is known. -/
theorem decRespResult_of_returns {f : List Byte} {sa fc : Byte} {q : Half} {s : State} {r : Result}
    (h : Returns (.decResp (.presented f) sa fc q) s s r) :
    f.length ≤ Config.frameBufBytes ∧ supportedFunction fc = true ∧ quantityInRange q = true ∧
      decRespResult Config.excMatch f sa fc q = r := by
  obtain ⟨u, hu, hstate⟩ := h
  obtain ⟨hl, hf, hq, hr⟩ := exec_decResp_result hu (congrArg State.results hstate)
  rw [State.present_presented, State.frame_fill] at hr
  exact ⟨hl, hf, hq, hr⟩

/-! ## The checks of DEC_RESP one by one (R131 to R137) -/

theorem decRespResult_of_short {f : List Byte} (m : ExcMatch) (sa fc : Byte) (q : Half) (h : f.length < 5) :
    decRespResult m f sa fc q = .frameError .wrongLength := if_pos h

theorem decRespResult_of_crc_wrong {f : List Byte} (m : ExcMatch) (sa fc : Byte) (q : Half) (hlen : 5 ≤ f.length)
    (hok : crcOk f = false) : decRespResult m f sa fc q = .frameError .crcMismatch := by
  simp [decRespResult, Nat.not_lt.2 hlen, hok]

theorem decRespResult_of_slave_ne {f : List Byte} {sa : Byte} (m : ExcMatch) (fc : Byte) (q : Half)
    (hlen : 5 ≤ f.length) (hok : crcOk f = true) (hsa : byteAt f 0 ≠ sa) :
    decRespResult m f sa fc q = .frameError .addressMismatch := by
  simp [decRespResult, Nat.not_lt.2 hlen, hok, hsa]

theorem decRespResult_of_function_ne {f : List Byte} {fc : Byte} (m : ExcMatch) (q : Half) (hlen : 5 ≤ f.length)
    (hok : crcOk f = true) (hmsb : (byteAt f 1).msb = false) (hne : byteAt f 1 ≠ fc) :
    decRespResult m f (byteAt f 0) fc q = .frameError .functionMismatch := by
  rw [decRespResult_of_crcOk m fc q hlen hok, if_neg (Bool.eq_false_iff.1 hmsb), if_pos hne]

theorem function_msb_of_supported {fc : Byte} (h : supportedFunction fc = true) : fc.msb = false := by
  obtain rfl | rfl := (supportedFunction_iff fc).1 h <;> rfl

/-- A frame with the expected slave address and function code, one of the block's two, is judged by its data alone. -/
theorem decRespResult_of_function_eq {f : List Byte} (m : ExcMatch) (q : Half) (hlen : 5 ≤ f.length)
    (hok : crcOk f = true) (hf : supportedFunction (byteAt f 1) = true) :
    decRespResult m f (byteAt f 0) (byteAt f 1) q = responseDataResult f q := by
  rw [decRespResult_of_crcOk m _ q hlen hok, if_neg (Bool.eq_false_iff.1 (function_msb_of_supported hf)),
    if_neg (not_not.2 rfl)]

theorem responseDataResult_of_count_ne {f : List Byte} {q : Half} (h : (byteAt f 2).toNat ≠ 2 * q.toNat) :
    responseDataResult f q = .frameError .byteCountMismatch := if_pos h

/-- No check after the CRC comparison gives `CrcMismatch`. -/
theorem exceptionResult_ne_crcMismatch (m : ExcMatch) (f : List Byte) (fc : Byte) :
    exceptionResult m f fc ≠ .frameError .crcMismatch := by
  unfold exceptionResult
  repeat' split
  all_goals simp

theorem responseDataResult_ne_crcMismatch (f : List Byte) (q : Half) :
    responseDataResult f q ≠ .frameError .crcMismatch := by
  unfold responseDataResult
  repeat' split
  all_goals simp

theorem decRespResult_ne_crcMismatch {f : List Byte} (m : ExcMatch) (sa fc : Byte) (q : Half) (hlen : 5 ≤ f.length)
    (hok : crcOk f = true) : decRespResult m f sa fc q ≠ .frameError .crcMismatch := by
  by_cases hsa : byteAt f 0 = sa
  · subst hsa
    rw [decRespResult_of_crcOk m fc q hlen hok]
    split
    · exact exceptionResult_ne_crcMismatch m f fc
    · split
      · simp
      · exact responseDataResult_ne_crcMismatch f q
  · simp [decRespResult_of_slave_ne m fc q hlen hok hsa]

/-! ### Exception responses under either value of `EXC_MATCH` (R133) -/

theorem recognisedException_eq_false_iff (m : ExcMatch) (fc f : Byte) :
    recognisedException m fc f = false ↔ m = .strict ∧ f ≠ fc ||| 0x80#8 := by
  cases m <;> simp [recognisedException]

theorem exceptionResult_strict (f : List Byte) (fc : Byte) :
    exceptionResult .strict f fc =
      if byteAt f 1 = fc ||| 0x80#8 then
        (if f.length = 5 then .deviceExceptionError (byteAt f 2) else .frameError .wrongLength)
      else .frameError .functionMismatch := by
  simp [exceptionResult, recognisedException]

theorem exceptionResult_bit7 (f : List Byte) (fc : Byte) :
    exceptionResult .bit7 f fc =
      if f.length = 5 then .deviceExceptionError (byteAt f 2) else .frameError .wrongLength := by
  simp [exceptionResult, recognisedException]

/-! ### The frames DEC_RESP takes for a response -/

/-- A frame that DEC_RESP accepts or reports as an exception has five bytes and a correct CRC. -/
theorem crcOk_of_decRespResult {m : ExcMatch} {f : List Byte} {sa fc : Byte} {q : Half}
    (h : ∀ e, decRespResult m f sa fc q ≠ .frameError e) : 5 ≤ f.length ∧ crcOk f = true := by
  obtain ⟨e, he, -⟩ | ⟨-, hlen, hok, -⟩ | ⟨-, hok, -, -, -, hlen⟩ := decRespResult_cases m f sa fc q
  · exact absurd he (h e)
  · exact ⟨Nat.le_of_eq hlen.symm, hok⟩
  · exact ⟨by omega, hok⟩

/-- What an accepted frame holds, and the words returned for it (R134 to R137). -/
theorem decRespResult_eq_words {m : ExcMatch} {f : List Byte} {sa fc : Byte} {q : Half} {ws : List Half}
    (h : decRespResult m f sa fc q = .ok (.words ws)) :
    ws = (List.range q.toNat).map (frameWord f) ∧ byteAt f 0 = sa ∧ byteAt f 1 = fc ∧
      (byteAt f 2).toNat = 2 * q.toNat ∧ f.length = 5 + 2 * q.toNat := by
  obtain ⟨e, he, -⟩ | ⟨hx, -⟩ | ⟨hw, -, hsa, hfc, hcount, hlen⟩ := decRespResult_cases m f sa fc q
  · rw [he] at h
    cases h
  · rw [hx] at h
    cases h
  · rw [hw] at h
    cases h
    exact ⟨rfl, hsa, hfc, hcount, hlen⟩

/-- Bytes after an accepted frame are never ignored: the length is no longer the expected one, if the CRC comparison comes
as far (R136). -/
theorem decRespResult_append {m : ExcMatch} {f extra : List Byte} {sa fc : Byte} {q : Half} {ws : List Half}
    (hf : supportedFunction fc = true) (h : decRespResult m f sa fc q = .ok (.words ws)) (hne : extra ≠ []) :
    decRespResult m (f ++ extra) sa fc q = .frameError .wrongLength ∨
      decRespResult m (f ++ extra) sa fc q = .frameError .crcMismatch := by
  obtain ⟨-, rfl, rfl, hcount, hlen⟩ := decRespResult_eq_words h
  have hmore : 0 < extra.length := List.length_pos_of_ne_nil hne
  have hlong : (f ++ extra).length = f.length + extra.length := List.length_append
  have hbyte (i : Nat) (hi : i < 5) : byteAt (f ++ extra) i = byteAt f i := byteAt_append_left f extra i (by omega)
  rw [← hbyte 0 (by decide), ← hbyte 1 (by decide)]
  rw [← hbyte 1 (by decide)] at hf
  rw [← hbyte 2 (by decide)] at hcount
  cases hok : crcOk (f ++ extra) with
  | false => exact .inr (decRespResult_of_crc_wrong m _ _ q (by omega) hok)
  | true =>
    rw [decRespResult_of_function_eq m q (by omega) hok hf]
    exact .inl (responseDataResult_of_length_ne hcount (by omega))

/-! ### The slave's correct response (R140) -/

/-- The words read from a response frame are the words it was built of. -/
theorem map_frameWord_respFrame (sa fc : Byte) (ws : List Half) :
    (List.range ws.length).map (frameWord (respFrame sa fc ws)) = ws := by
  apply List.ext_getElem
  · simp
  · intro i _ hi
    obtain ⟨hhigh, hlow⟩ := word_respFrame sa fc hi
    rw [List.getElem_map, List.getElem_range, frameWord, hhigh, hlow, be16_hi_lo, List.getD_eq_getElem _ _ hi]

theorem decRespResult_respFrame (m : ExcMatch) (sa : Byte) {fc : Byte} {q : Half} {ws : List Half}
    (hf : supportedFunction fc = true) (hq : quantityInRange q = true) (hlen : ws.length = q.toNat) :
    decRespResult m (respFrame sa fc ws) sa fc q = .ok (.words ws) := by
  obtain ⟨-, hmax⟩ := (quantityInRange_iff q).1 hq
  have hfive : 5 ≤ (respFrame sa fc ws).length := by rw [length_respFrame]; omega
  have hcount := byteCount_respFrame sa fc (ws := ws) (by omega)
  have hdata : responseDataResult (respFrame sa fc ws) q = .ok (.words ws) := by
    simp [responseDataResult, hcount, ← hlen, map_frameWord_respFrame]
  exact (decRespResult_of_function_eq m q hfive (crcOk_withCrc _) hf).trans hdata

/-! ## Bytes of the presented frame -/

/-- Byte `i` of the frame in the buffer is `BufRead(i)`, for `i < len` (R12). -/
theorem State.byteAt_frame {s : State} {i : Nat} (h : i < s.len) : byteAt s.frame i = s.bufRead i := by
  have hi : i < s.frame.length := by rwa [State.length_frame]
  rw [byteAt, List.getD_eq_getElem _ _ hi, State.frame_getElem]

/-! ## The obligations about DEC_RESP -/

/-- Settles O33: ENC_REQ's own rule, and the words of a response frame read back. -/
theorem responseRoundTrip : Obligations.ResponseRoundTrip := by
  intro sa fc ra q ws s t hf hq hlen
  rw [blockCode_iff] at hf
  rw [inRange_iff] at hq
  refine ⟨returns_encReq_reqFrame sa ra s hf hq, ?_⟩
  have hfits : (respFrame sa fc ws).length ≤ Config.frameBufBytes := by
    obtain ⟨-, hmax⟩ := (quantityInRange_iff q).1 hq
    rw [length_respFrame, Config.frameBufBytes]
    omega
  exact (returns_decResp_presented_iff sa _ t hfits hf hq).2 (decRespResult_respFrame _ sa hf hq hlen)

/-- Settles O32: the operands decide between the two refusals and `decRespResult`, in which only the frame stands. -/
theorem decRespIsPure : Obligations.DecRespIsPure := by
  intro buf buf' sa fc q s s' hframe hl
  have hl' : (s'.present buf').len ≤ Config.frameBufBytes := by
    rwa [← State.length_frame, ← hframe, State.length_frame]
  by_cases hf : supportedFunction fc = true
  · by_cases hq : quantityInRange q = true
    · exact .inl ⟨_, returns_decResp sa hl hf hq, hframe ▸ returns_decResp sa hl' hf hq⟩
    · exact .inr ⟨_, exec_decResp_of_not_inRange sa hl hf hq, exec_decResp_of_not_inRange sa hl' hf hq⟩
  · exact .inr ⟨_, exec_decResp_of_unsupported sa q hl hf, exec_decResp_of_unsupported sa q hl' hf⟩

/-- Settles O35: such a frame has a correct CRC, which any flip spoils (R109), and the flip keeps the length. -/
theorem everySingleBitFlipOfAResponseIsACrcMismatch : Obligations.EverySingleBitFlipOfAResponseIsACrcMismatch := by
  intro f sa fc q s u r hu hr hkind i j hi hj t
  obtain ⟨hl, hf, hq, hres⟩ := exec_decResp_result hu hr
  rw [State.present_presented, State.frame_fill] at hres
  have hlength : (flipBit f i j).length = f.length := List.length_set
  obtain ⟨hlen, hok⟩ := crcOk_of_decRespResult (m := Config.excMatch) (f := f) (sa := sa) (fc := fc) (q := q) fun e => by
    obtain ⟨ws, rfl⟩ | ⟨code, rfl⟩ := hkind <;> simp [hres]
  have hbad := everySingleBitFlipIsDetected f i j (by omega) hok hi hj
  exact (returns_decResp_presented_iff sa _ t (hlength.trans_le hl) hf hq).2
    (decRespResult_of_crc_wrong _ sa fc q (by omega) hbad)

/-- Settles O25: the command word, the two refusals, and the conditions of the checks in the rule's words. -/
theorem decRespReportsTheFirstFailedCheck : Obligations.DecRespReportsTheFirstFailedCheck := by
  refine ⟨fun buf sa fc q h => commandWord_decResp sa fc q h, fun buf sa fc q s hl => ?_⟩
  intro t f g L
  rw [blockCode_iff, inRange_iff]
  refine ⟨exec_decResp_of_unsupported sa q hl, exec_decResp_of_not_inRange sa hl, fun hf hq => ?checks⟩
  case checks =>
    rw [returns_decResp_iff sa _ hl hf hq]
    have hcrc : (!crcOk f) = true ↔
        crc16 (f.take (L - 2)) ≠ ((g (L - 1)).setWidth 16 <<< 8) ||| (g (L - 2)).setWidth 16 := by
      rw [Bool.not_eq_true', ← Bool.not_eq_true, crcOk_iff]
      rfl
    have hmsb : (g 1).msb = true ↔ (g 1).getLsbD 7 = true := by rw [BitVec.msb_eq_getLsbD_last]
    have hexc : (!recognisedException Config.excMatch fc (g 1)) = true ↔
        Config.excMatch = .strict ∧ g 1 ≠ fc ||| 0x80#8 := by
      rw [Bool.not_eq_true', recognisedException_eq_false_iff]
    exact if_congr Iff.rfl rfl (if_congr hcrc rfl (if_congr Iff.rfl rfl
      (if_congr hmsb (if_congr hexc rfl rfl) rfl)))

/-- Settles O26: the length floor is the first check. -/
theorem shortResponseIsWrongLength : Obligations.ShortResponseIsWrongLength := by
  intro buf sa fc q s hf hq hshort
  rw [blockCode_iff] at hf
  rw [inRange_iff] at hq
  rw [returns_decResp_iff sa _ (by rw [Config.frameBufBytes]; omega) hf hq]
  exact decRespResult_of_short _ sa fc q (by rwa [State.length_frame])

/-- Settles O27: the CRC comparison is the second check, the residue says the same of the frame (R106), and no later check
gives `CrcMismatch`. -/
theorem badCrcIsReportedBeforeAnyField : Obligations.BadCrcIsReportedBeforeAnyField := by
  intro buf sa fc q s hf hq hmin hl f L
  rw [blockCode_iff] at hf
  rw [inRange_iff] at hq
  rw [returns_decResp_iff sa _ hl hf hq]
  have hlen : 5 ≤ f.length := hmin.trans_eq (State.length_frame _).symm
  have hwrong (hok : ¬ crcOk f = true) := decRespResult_of_crc_wrong Config.excMatch sa fc q hlen (by simpa using hok)
  have hresidue := crcOk_iff_residue (f := f) (by omega)
  exact ⟨fun h => hwrong (h ∘ (crcOk_iff f).1), fun h => hwrong (h ∘ hresidue.1),
    fun h => decRespResult_ne_crcMismatch _ sa fc q hlen (hresidue.2 h)⟩

/-- Settles O28: the slave echo, then the exception part under each value of `EXC_MATCH`. -/
theorem slaveEchoThenExceptionResponse : Obligations.SlaveEchoThenExceptionResponse := by
  intro f sa fc q hlen hl hok hf hq s i
  rw [blockCode_iff] at hf
  rw [inRange_iff] at hq
  simp only [i, returns_decResp_presented_iff sa _ s hl hf hq]
  refine ⟨decRespResult_of_slave_ne _ fc q hlen hok, fun hsa hmsb => ?exception⟩
  case exception =>
    subst hsa
    rw [← byteAt, decRespResult_of_crcOk _ fc q hlen hok, byteAt, if_pos hmsb]
    cases Config.excMatch with
    | strict => exact exceptionResult_strict f fc
    | bit7 => exact exceptionResult_bit7 f fc

/-- Settles O30: the function byte, the byte count and the length in turn; then the frames with bytes appended. -/
theorem responseMismatchesInOrder : Obligations.ResponseMismatchesInOrder := by
  refine ⟨fun f sa fc q s hlen hl hok hf hq hsa hmsb => ?inOrder, fun f extra sa fc q ws s h hne hl => ?appended, ?zero⟩
  case inOrder =>
    rw [blockCode_iff] at hf
    subst hsa
    intro fails bc
    have hrange := hq
    rw [inRange_iff] at hq
    have hfails (e : FrameReason) := returns_decResp_presented_iff (byteAt f 0) (.frameError e) s hl hf hq
    have hdata (hfc : byteAt f 1 = fc) (e : FrameReason) (h : responseDataResult f q = .frameError e) : fails e := by
      subst hfc
      exact (hfails e).2 ((decRespResult_of_function_eq _ q hlen hok hf).trans h)
    have hcount (hfc : byteAt f 1 = fc) (hne : bc ≠ 2 * q.toNat) : fails .byteCountMismatch :=
      hdata hfc _ (responseDataResult_of_count_ne hne)
    refine ⟨fun hne => (hfails _).2 (decRespResult_of_function_ne _ q hlen hok hmsb hne), hcount, fun hfc hbc => ?never,
      fun hfc hbc hne => hdata hfc _ (responseDataResult_of_length_ne hbc hne)⟩
    case never =>
      obtain ⟨hmin, hmax⟩ := hrange
      exact hcount hfc (by omega)
  case appended =>
    obtain ⟨-, hf, hq, hres⟩ := decRespResult_of_returns h
    intro fails
    simp only [fails, returns_decResp_presented_iff sa _ s hl hf hq]
    exact decRespResult_append hf hres hne
  case zero =>
    intro f
    have hok : crcOk f = true := by decide +kernel
    refine ⟨hok, fun s => (returns_decResp_presented_iff _ _ s (by decide) (by decide) (by decide)).2 ?_⟩
    exact (decRespResult_of_function_eq (f := f) _ 1#16 (by decide) hok (by decide)).trans
      (responseDataResult_of_length_ne rfl (by decide))

/-- Settles O31: the words of an accepted frame are its bytes in pairs, and each byte is in the buffer. -/
theorem responseWordsAreBigEndianInWireOrder : Obligations.ResponseWordsAreBigEndianInWireOrder := by
  intro buf sa fc q s t ws h hr
  obtain ⟨-, -, -, hres⟩ := exec_decResp_result h hr
  obtain ⟨rfl, -, -, -, hlen⟩ := decRespResult_eq_words hres
  rw [State.length_frame] at hlen
  refine ⟨by simp, fun i hi => ?word⟩
  case word =>
    rw [List.getD_eq_getElem _ _ (by simpa using hi), List.getElem_map, List.getElem_range, frameWord,
      State.byteAt_frame (by omega), State.byteAt_frame (by omega)]
    rfl

end Sys2Proof.Machine
end

