-- ==== Sys2Proof/Proofs/ParseReq.lean ====
section
/-!
SUPPORT. PARSE_REQ (R150 to R152): the order of its checks, and the frames it accepts.
-/

namespace Sys2Proof.Machine

open Claims

/-! ## What PARSE_REQ returns -/

theorem commandWord_parseReq {buf : BufOperand} (h : buf.wf = true) : CommandWord 0x21 (.parseReq buf) := by
  refine ⟨_, rfl, rfl, (decodeCommand_of_word rfl).trans ?_⟩
  simp only [decodeOperands_parseReq, bufOperand_toInput h, bind_ok]

/-- PARSE_REQ returns `parseReqResult` of the presented frame, and nothing else. -/
theorem returns_parseReq_iff {buf : BufOperand} {s : State} (r : Result)
    (hl : (s.present buf).len ≤ Config.frameBufBytes) :
    Returns (.parseReq buf) s s r ↔ parseReqResult (s.present buf).frame = r :=
  returns_iff_of_exec (exec_parseReq hl)

/-- What a returned result says of a frame presented with the command. -/
theorem parseReqResult_of_returns {f : List Byte} {s : State} {r : Result}
    (h : Returns (.parseReq (.presented f)) s s r) : parseReqResult f = r := by
  have ⟨u, hu, _⟩ := h
  obtain ⟨hl, -⟩ := exec_parseReq_cases hu
  rwa [returns_parseReq_iff r hl, State.present_presented, State.frame_fill] at h

theorem parseReqResult_of_unsupported {f : List Byte} (hlen : f.length = 8) (hok : crcOk f = true)
    (hf : ¬ supportedFunction (byteAt f 1) = true) : parseReqResult f = .frameError .functionMismatch := by
  simp [parseReqResult, hlen, hok, hf]

/-- The function code is the next check after the length and the CRC comparison (R152). -/
theorem returns_parseReq_of_unsupported {f : List Byte} (s : State) (hlen : f.length = 8) (hok : crcOk f = true)
    (hf : ¬ supportedFunction (byteAt f 1) = true) :
    Returns (.parseReq (.presented f)) s s (.frameError .functionMismatch) :=
  parseReqResult_of_unsupported hlen hok hf ▸ returns_parseReq_presented s (hlen.trans_le (by decide))

/-- What ENC_REQ returns as a frame is the request frame of operands it takes. -/
theorem returns_encReq_request_iff (sa fc : Byte) (ra q : Half) (t : State) (f : List Byte)
    (hf : supportedFunction fc = true) (hq : quantityInRange q = true) :
    Returns (.encReq sa fc ra q) t t (.ok (.request f)) ↔ f = reqFrame sa fc ra q := by
  have hexec := (exec_encReq sa fc ra q t).trans (if_pos hf)
  rw [returns_iff_of_exec hexec, encReqResult_of_inRange sa fc ra hq]
  simp [eq_comm]

/-! ## The obligations about PARSE_REQ -/

/-- Settles O37: both sides say that the frame is the request frame of operands ENC_REQ takes
(`parseReqResult_eq_fields_iff`). -/
theorem parseReqAcceptsExactlyEncReqOutputs : Obligations.ParseReqAcceptsExactlyEncReqOutputs := by
  intro f s t
  constructor
  · rintro ⟨sa, fc, ra, q, h⟩
    obtain ⟨hf, hq, rfl⟩ := (parseReqResult_eq_fields_iff f sa fc ra q).1 (parseReqResult_of_returns h)
    exact ⟨sa, fc, ra, q, (blockCode_iff fc).2 hf, (inRange_iff q).2 hq, returns_encReq_reqFrame sa ra t hf hq⟩
  · rintro ⟨sa, fc, ra, q, hf, hq, h⟩
    rw [blockCode_iff] at hf
    rw [inRange_iff] at hq
    obtain rfl := (returns_encReq_request_iff sa fc ra q t f hf hq).1 h
    have hfits : (reqFrame sa fc ra q).length ≤ Config.frameBufBytes := by
      rw [reqFrame, length_withCrc, length_reqBody]
      decide
    exact ⟨sa, fc, ra, q, parseReqResult_reqFrame sa ra hf hq ▸ returns_parseReq_presented s hfits⟩

/-- Settles O36: the command word, and the conditions of the checks in the rule's words. -/
theorem parseReqReportsTheFirstFailedCheck : Obligations.ParseReqReportsTheFirstFailedCheck := by
  refine ⟨fun buf h => commandWord_parseReq h, fun buf s hl => ?_⟩
  intro t f g be
  rw [returns_parseReq_iff _ hl]
  have hcrc (hlen : f.length = 8) : (!crcOk f) = true ↔ crc16 (f.take 6) ≠ be 7 6 := by
    rw [Bool.not_eq_true', ← Bool.not_eq_true, crcOk_iff, receivedCrc, hlen]
    rfl
  have hfunction : (!supportedFunction (g 1)) = true ↔ g 1 ≠ 0x03#8 ∧ g 1 ≠ 0x04#8 := by
    rw [Bool.not_eq_true', ← Bool.not_eq_true, supportedFunction_iff, not_or]
  have hquantity : (!quantityInRange (be 4 5)) = true ↔ (be 4 5).toNat = 0 ∨ 125 < (be 4 5).toNat := by
    rw [Bool.not_eq_true', ← Bool.not_eq_true, quantityInRange_iff]
    omega
  by_cases hlen : f.length = 8
  · rw [if_neg (not_not.2 hlen)]
    exact (if_neg (not_not.2 hlen)).trans
      (if_congr (hcrc hlen) rfl (if_congr hfunction rfl (if_congr hquantity rfl rfl)))
  · rw [if_pos hlen]
    exact parseReqResult_of_length_ne hlen

/-- Settles O38: any such frame by the check of the function code, and the rule's example is one. -/
theorem parseReqKnowsOnlyTheReadCodes : Obligations.ParseReqKnowsOnlyTheReadCodes := by
  have hexample : crcOk [0x01#8, 0x06#8, 0x00#8, 0x01#8, 0x00#8, 0x03#8, 0x98#8, 0x0B#8] = true := by decide +kernel
  exact ⟨fun f s hlen hok hf => returns_parseReq_of_unsupported s hlen hok (mt (blockCode_iff _).2 hf), hexample,
    fun s => returns_parseReq_of_unsupported s rfl hexample (by decide)⟩

end Sys2Proof.Machine
end

