-- ==== Sys2Proof/Proofs/Errors.lean ====
section
/-!
SUPPORT. The three error kinds (R160 to R164, R168): which command returns which error, the exception frames DEC_RESP
reports, and that an error changes nothing but the results.
-/

namespace Sys2Proof.Machine

open Claims

/-! ## Which instruction returns which result -/

/-- Only a command returns a result: handing over a frame returns none (R69). -/
theorem frameBytes_eq_nil_of_result {i : Instr} {s t : State} {r : Result} (h : exec i s = .next t)
    (hr : t.results = s.results ++ [r]) : frameBytes i = [] := by
  by_contra hb
  obtain ⟨-, rfl⟩ := exec_frameRow_cases hb h
  simp at hr

/-- The result an instruction returns is a success, or one of the errors of ENC_REQ, DEC_RESP or PARSE_REQ (R160). -/
theorem exec_result_cases {i : Instr} {s t : State} {r : Result} (h : exec i s = .next t)
    (hr : t.results = s.results ++ [r]) :
    (∃ p, r = .ok p) ∨
      (∃ sa fc ra q, i = .encReq sa fc ra q ∧ r = .encodingError .quantityOutOfRange ∧ ¬ quantityInRange q = true) ∨
      ((∃ b sa fc q, i = .decResp b sa fc q) ∧
        ((∃ e, r = .frameError e ∧ e ≠ .quantityOutOfRange) ∨ ∃ c, r = .deviceExceptionError c)) ∨
      ((∃ b, i = .parseReq b) ∧ ∃ e, r = .frameError e ∧ e ≠ .addressMismatch ∧ e ≠ .byteCountMismatch) := by
  have hcmd := frameBytes_eq_nil_of_result h hr
  cases i with
  | crcInit =>
    rw [exec_crcInit] at h
    cases h
    obtain rfl := (s.releaseFrame_emit_results_eq_iff _ r).1 hr
    exact .inl ⟨_, rfl⟩
  | crcUpdate b =>
    obtain ⟨-, rfl⟩ := exec_crcUpdate_cases h
    obtain rfl := (s.releaseFrame_emit_results_eq_iff _ r).1 hr
    exact .inl ⟨_, rfl⟩
  | crcRead =>
    obtain ⟨-, rfl⟩ := exec_crcRead_cases h
    obtain rfl := (s.releaseFrame_emit_results_eq_iff _ r).1 hr
    exact .inl ⟨_, rfl⟩
  | encReq sa fc ra q =>
    obtain ⟨-, rfl⟩ := exec_encReq_cases h
    obtain rfl := (s.releaseFrame_emit_results_eq_iff _ r).1 hr
    by_cases hq : quantityInRange q = true
    · exact .inl ⟨_, encReqResult_of_inRange sa fc ra hq⟩
    · exact .inr (.inl ⟨sa, fc, ra, q, rfl, encReqResult_of_not_inRange sa fc ra hq, hq⟩)
  | decResp b sa fc q =>
    obtain ⟨-, -, -, rfl⟩ := exec_decResp_result h hr
    obtain he | ⟨hx, -⟩ | ⟨hw, -⟩ := decRespResult_cases Config.excMatch (s.present b).frame sa fc q
    · exact .inr (.inr (.inl ⟨⟨b, sa, fc, q, rfl⟩, .inl he⟩))
    · exact .inr (.inr (.inl ⟨⟨b, sa, fc, q, rfl⟩, .inr ⟨_, hx⟩⟩))
    · exact .inl ⟨_, hw⟩
  | parseReq b =>
    obtain ⟨-, rfl⟩ := exec_parseReq_cases h
    obtain rfl := (s.releaseFrame_emit_results_eq_iff _ r).1 hr
    obtain he | ⟨hf, -⟩ := parseReqResult_cases (s.present b).frame
    · exact .inr (.inr (.inr ⟨⟨b, rfl⟩, he⟩))
    · exact .inl ⟨_, hf⟩
  | reserved => cases h
  | _ => simp [frameBytes, reqBody, respBody, excBodyRaw] at hcmd

/-! ## The slave's exception response (R133, R163) -/

/-- The function byte `fc OR 0x80` is recognised under either value of `EXC_MATCH`. -/
theorem recognisedException_excFlag (m : ExcMatch) (fc : Byte) :
    recognisedException m fc (fc ||| Config.excFlag) = true := by
  cases m <;> simp [recognisedException]

theorem exceptionResult_of_length_eq {m : ExcMatch} {f : List Byte} {fc : Byte}
    (hrec : recognisedException m fc (byteAt f 1) = true) (hlen : f.length = 5) :
    exceptionResult m f fc = .deviceExceptionError (byteAt f 2) := by
  simp [exceptionResult, hrec, hlen]

/-- DEC_RESP reports the code of the exception response to the expected function code as it stands, for either value of
`EXC_MATCH`. -/
theorem decRespResult_excFrame (m : ExcMatch) (sa fc code : Byte) (q : Half) :
    decRespResult m (excFrame sa fc code) sa fc q = .deviceExceptionError code := by
  have hlen : (excFrame sa fc code).length = 5 := length_withCrc _
  have hmsb : (fc ||| Config.excFlag).msb = true := BitVec.msb_or.trans (Bool.or_true _)
  calc decRespResult m (excFrame sa fc code) sa fc q
      = exceptionResult m (excFrame sa fc code) fc :=
        (decRespResult_of_crcOk m fc q hlen.ge (crcOk_withCrc _)).trans (if_pos hmsb)
    _ = .deviceExceptionError code := exceptionResult_of_length_eq (recognisedException_excFlag m fc) hlen

/-! ## The obligations about errors -/

/-- Settles O29: what an exception result says of the frame by the cases of DEC_RESP's result; every code by
`decRespResult_excFrame`. -/
theorem exceptionCodeIsReportedUnchanged : Obligations.ExceptionCodeIsReportedUnchanged := by
  refine ⟨fun buf sa fc q s t code h hr => ?reported, fun sa fc code q s hf hq => ?everyCode⟩
  case reported =>
    intro f
    obtain ⟨-, -, -, hres⟩ := exec_decResp_result h hr
    obtain ⟨e, he, -⟩ | ⟨hx, hlen, hok, hsa, hmsb, -⟩ | ⟨hw, -⟩ := decRespResult_cases Config.excMatch f sa fc q
    · cases he.symm.trans hres
    · cases hx.symm.trans hres
      exact ⟨rfl, hlen, hok, hsa, hmsb⟩
    · cases hw.symm.trans hres
  case everyCode =>
    rw [blockCode_iff] at hf
    rw [inRange_iff] at hq
    have hfits : (excFrame sa fc code).length ≤ Config.frameBufBytes := by
      rw [excFrame, length_withCrc, length_excBodyRaw]
      decide
    exact (returns_decResp_presented_iff sa _ s hfits hf hq).2 (decRespResult_excFrame _ sa fc code q)

/-- Settles O48: the codes by definition, the raisers by the cases of the returned result. -/
theorem errorKindsAndWhoRaisesThem : Obligations.ErrorKindsAndWhoRaisesThem := by
  refine ⟨fun _ => rfl, fun _ => rfl, fun _ => rfl, rfl, fun i s t r h hr => ?raisers⟩
  obtain ⟨p, rfl⟩ | ⟨sa, fc, ra, q, hi, rfl, -⟩ | ⟨hi, ⟨e, rfl, he⟩ | ⟨c, rfl⟩⟩ | ⟨hi, e, rfl, hsa, hcount⟩ :=
    exec_result_cases h hr
  · simp
  · simp [hi]
  · simp [hi, he]
  · simp [hi]
  · simp [hi, hsa, hcount]

/-- Settles O49: the only case with an `EncodingError` is ENC_REQ's, and ENC_REQ with such a quantity returns one. -/
theorem encodingErrorExactlyForBadQuantity : Obligations.EncodingErrorExactlyForBadQuantity := by
  have hbad (q : Half) : ¬ quantityInRange q = true ↔ q.toNat = 0 ∨ 125 < q.toNat := by
    rw [quantityInRange_iff]
    omega
  refine ⟨fun e => by cases e; exact ⟨rfl, rfl⟩, fun i s t h => ⟨?raised, ?raises⟩⟩
  case raised =>
    rintro ⟨e, hr⟩
    obtain ⟨p, hp⟩ | ⟨sa, fc, ra, q, hi, -, hq⟩ | ⟨-, ⟨e', he, -⟩ | ⟨c, hc⟩⟩ | ⟨-, e', he, -⟩ := exec_result_cases h hr
    · cases hp
    · exact ⟨sa, fc, ra, q, hi, (hbad q).1 hq⟩
    · cases he
    · cases hc
    · cases he
  case raises =>
    rintro ⟨sa, fc, ra, q, rfl, hq⟩
    obtain ⟨-, rfl⟩ := exec_encReq_cases h
    exact ⟨_, congrArg (s.results ++ [·]) (encReqResult_of_not_inRange sa fc ra ((hbad q).2 hq))⟩

/-- Settles O50: only a command returns a result, and a command that returns an error writes neither register. -/
theorem errorsChangeNothing : Obligations.ErrorsChangeNothing := by
  intro i s t r h hr herr
  obtain ⟨c, v, r', rfl, -, -, hkept⟩ := exec_command_cases (frameBytes_eq_nil_of_result h hr) h
  obtain rfl : r' = r := by simpa using hr
  obtain ⟨rfl, rfl⟩ := hkept herr
  rfl

end Sys2Proof.Machine
end

