-- ==== Sys2Proof/Proofs/Faults.lean ====
section
/-!
SUPPORT. The one fault of a command (R170): which instructions fault, and what the `fault` mark does to a run (R23,
R200).
-/

namespace Sys2Proof.Machine

/-! ## Which instructions fault -/

theorem handFrame_ne_fault (s : State) (bs : List Byte) (f : Fault) : s.handFrame bs ≠ .fault f := by
  unfold State.handFrame
  split <;> simp

/-- Presenting a frame operand does not fault, so the whole does not where the rest does not. -/
theorem withFrameOperand_ne_fault {k : State → Host.Outcome State Fault Refusal} {f : Fault} (buf : BufOperand)
    (s : State) (hk : ∀ t, k t ≠ .fault f) : withFrameOperand buf s k ≠ .fault f := by
  unfold withFrameOperand
  split
  · simp
  · exact hk _

theorem exec_frameRow_ne_fault {i : Instr} (s : State) (f : Fault) (hb : frameBytes i ≠ []) : exec i s ≠ .fault f :=
  exec_frameRow i s hb ▸ handFrame_ne_fault s _ f

theorem exec_encReq_ne_fault (sa fc : Byte) (ra q : Half) (s : State) (f : Fault) :
    exec (.encReq sa fc ra q) s ≠ .fault f := by
  rw [exec_encReq]
  split <;> simp

theorem exec_decResp_ne_fault (buf : BufOperand) (sa fc : Byte) (q : Half) (s : State) (f : Fault) :
    exec (.decResp buf sa fc q) s ≠ .fault f := by
  simp only [exec, execDecResp]
  refine withFrameOperand_ne_fault buf s fun t => ?_
  split
  · simp
  · split <;> simp

theorem exec_parseReq_ne_fault (buf : BufOperand) (s : State) (f : Fault) : exec (.parseReq buf) s ≠ .fault f := by
  simp only [exec, execParseReq]
  exact withFrameOperand_ne_fault buf s fun _ => by simp

/-- An instruction that faults is CRC_UPDATE or CRC_READ without a valid CRC. -/
theorem exec_fault_cases {i : Instr} {s : State} {f : Fault} (h : exec i s = .fault f) :
    f = .crcNotInitialised ∧ s.crcValid = false ∧ ((∃ b, i = .crcUpdate b) ∨ i = .crcRead) := by
  cases i with
  | crcInit => cases h
  | crcUpdate b =>
    cases hv : s.crcValid with
    | false =>
      rw [exec_crcUpdate_invalid b hv] at h
      cases h
      exact ⟨rfl, rfl, .inl ⟨b, rfl⟩⟩
    | true =>
      rw [exec_crcUpdate_valid b hv] at h
      cases h
  | crcRead =>
    cases hv : s.crcValid with
    | false =>
      rw [exec_crcRead_invalid hv] at h
      cases h
      exact ⟨rfl, rfl, .inr rfl⟩
    | true =>
      rw [exec_crcRead_valid hv] at h
      cases h
  | encReq sa fc ra q => exact absurd h (exec_encReq_ne_fault sa fc ra q s f)
  | decResp buf sa fc q => exact absurd h (exec_decResp_ne_fault buf sa fc q s f)
  | parseReq buf => exact absurd h (exec_parseReq_ne_fault buf s f)
  | reserved => cases h
  | _ => exact absurd h (exec_frameRow_ne_fault s f (by simp [frameBytes, reqBody, respBody, excBodyRaw]))

/-! ## The mark -/

theorem advance_of_marked {s : State} (h : s.marked = true) : advance s = s := if_pos h

theorem advance_of_fault {s : State} {f : Fault} (h : s.marked = false) (hf : step s = .fault f) :
    advance s = s.markFault := by
  rw [advance, if_neg (Bool.eq_false_iff.1 h), hf]

/-- A marked run stays as it is for good (R23, R200). -/
theorem advances_of_marked (n : Nat) {s : State} (h : s.marked = true) : advances n s = s := by
  induction n with
  | zero => rfl
  | succ n ih => rw [advances, advance_of_marked h, ih]

/-- Settles O51: the two directions of the fault's condition; the mark is set by `advance`, and a marked run does not
change. -/
theorem faultExactlyWithoutAValidCrc : Obligations.FaultExactlyWithoutAValidCrc := by
  refine ⟨fun i s f => ⟨exec_fault_cases, ?faults⟩, fun s f hfault hrefused h => ?marks, fun s n hmark => ?kept⟩
  case faults =>
    rintro ⟨rfl, hv, ⟨b, rfl⟩ | rfl⟩
    · exact exec_crcUpdate_invalid b hv
    · exact exec_crcRead_invalid hv
  case marks =>
    rw [advance_of_fault (by simp [hfault, hrefused]) h]
    exact ⟨rfl, rfl⟩
  case kept =>
    rw [advances_of_marked n (by simp [hmark])]
    refine ⟨hmark, rfl, ?_, hmark⟩
    rintro ⟨hclear, -, -⟩
    rw [hmark] at hclear
    cases hclear

end Sys2Proof.Machine
end

