-- ==== Sys2Proof/Proofs/ResetAndHazards.lean ====
section
/-!
SUPPORT. What the block does right after a reset (R190, R191), and the hazard of its one `crc` register: two CRCs computed
in turn, and a frame command between two CRC_UPDATEs (R195).
-/

namespace Sys2Proof.Machine

open Claims

/-! ## Right after reset -/

/-- After power-on and after an asserted reset alike, `crc_valid` is clear (R190). -/
theorem crcValid_after_reset {t : State} (h : t = State.reset ∨ ∃ s : State, t = s.applyReset) : t.crcValid = false := by
  obtain rfl | ⟨s, rfl⟩ := h
  · rfl
  · exact s.applyReset_crcValid

/-- Settles O55: only CRC_UPDATE and CRC_READ look at `crc_valid`, which a reset clears; what the other four return holds in
every state. -/
theorem rightAfterReset : Obligations.RightAfterReset := by
  intro t ht
  have hclear : t.crcValid = false := crcValid_after_reset ht
  exact ⟨returns_crcInit t,
    fun sa fc ra q hf => returns_encReq sa ra q t ((blockCode_iff fc).1 hf),
    fun b sa fc q hf hq hl => returns_decResp sa hl ((blockCode_iff fc).1 hf) ((inRange_iff q).1 hq),
    fun b hl => (returns_parseReq_iff _ hl).2 rfl,
    fun b => exec_crcUpdate_invalid b hclear, exec_crcRead_invalid hclear⟩

/-! ## Sequences that complete -/

/-- A sequence that completes is its first instruction, which completes, and then the rest. -/
theorem execSeq_cons_cases {i : Instr} {is : List Instr} {s t : State} (h : execSeq (i :: is) s = .next t) :
    ∃ u, exec i s = .next u ∧ execSeq is u = .next t := by
  rw [execSeq] at h
  split at h
  · exact ⟨_, ‹_›, h⟩
  · cases h
  · cases h

/-! ## A CRC that is read -/

/-- The CRC `c` stands in `crc`, and the last command returned it. -/
def State.HasReadCrc (t : State) (c : Half) : Prop := t.crc = c ∧ t.results.getLast? = some (.ok (.crc c))

/-- CRC_READ of a valid `crc`. -/
theorem hasReadCrc_of_exec_crcRead {s t : State} (h : exec .crcRead s = .next t) : t.HasReadCrc s.crc := by
  obtain ⟨-, rfl⟩ := exec_crcRead_cases h
  exact ⟨rfl, List.getLast?_concat⟩

/-- One CRC_UPDATE a byte and a CRC_READ, begun with a valid `crc`, read the bytes folded into it. -/
theorem execSeq_crcUpdates_crcRead (bs : List Byte) {s : State} (h : s.crcValid = true) :
    ∃ t : State, execSeq (bs.map .crcUpdate ++ [.crcRead]) s = .next t ∧ t.HasReadCrc (crcFold s.crc bs) := by
  obtain ⟨u, hu, hstate⟩ := execSeq_crcUpdates bs [.crcRead] h
  have hvalid : u.crcValid = true := by rw [hstate]; exact h
  have hcrc : u.crc = crcFold s.crc bs := by rw [hstate]
  have hread := exec_crcRead_valid hvalid
  exact ⟨_, hu.trans (execSeq_cons_of_next hread), hcrc ▸ hasReadCrc_of_exec_crcRead hread⟩

/-- CRC_INIT, one CRC_UPDATE a byte and a CRC_READ read CRC16 of the bytes, whatever the state (R105). -/
theorem execSeq_crcBlock (bs : List Byte) (s : State) :
    ∃ t : State, execSeq (crcBlock bs) s = .next t ∧ t.HasReadCrc (crc16 bs) := by
  obtain ⟨-, t, ht, hstate⟩ := accumulatorLaw bs s
  refine ⟨t, ht, ?_⟩
  rw [hstate]
  exact ⟨rfl, List.getLast?_concat⟩

/-! ## Two CRCs in turn (R195) -/

/-- CRC_INIT for a second sequence, issued before the first one's CRC_READ, loses the first CRC. -/
theorem execSeq_second_crcInit (xs ys : List Byte) (s : State) :
    ∃ t : State, execSeq (.crcInit :: (xs.map .crcUpdate ++ crcBlock ys)) s = .next t ∧ t.HasReadCrc (crc16 ys) := by
  obtain ⟨u, hu, -⟩ := execSeq_crcInit_crcUpdates xs (crcBlock ys) s
  obtain ⟨t, ht, hread⟩ := execSeq_crcBlock ys u
  exact ⟨t, hu.trans ht, hread⟩

/-- Without a CRC_INIT of its own the second sequence goes on from the first. -/
theorem execSeq_no_second_crcInit (xs ys : List Byte) (s : State) :
    ∃ t : State, execSeq (.crcInit :: (xs.map .crcUpdate ++ (ys.map .crcUpdate ++ [.crcRead]))) s = .next t ∧
      t.HasReadCrc (crc16 (xs ++ ys)) := by
  have hblock := execSeq_crcBlock (xs ++ ys) s
  rwa [crcBlock, List.map_append, List.append_assoc] at hblock

/-! ## A frame command between two CRC_UPDATEs (R195) -/

/-- An instruction other than CRC_INIT and CRC_UPDATE leaves `crc` and `crc_valid` alone (R20, R21). -/
theorem exec_keeps_crcRegisters {i : Instr} {s t : State} (hinit : i ≠ .crcInit) (hupd : ∀ b, i ≠ .crcUpdate b)
    (h : exec i s = .next t) : t.crc = s.crc ∧ t.crcValid = s.crcValid := by
  obtain ⟨hi, -⟩ | ⟨b, hi, -⟩ | ⟨-, hkept⟩ := exec_crcRegisters_cases h
  · exact absurd hi hinit
  · exact absurd hi (hupd b)
  · exact hkept

/-- A CRC computed around an instruction that leaves `crc` and `crc_valid` alone is the CRC of all its bytes. -/
theorem hasReadCrc_around {i : Instr} (hkeeps : ∀ s t, exec i s = .next t → t.crc = s.crc ∧ t.crcValid = s.crcValid)
    {xs ys : List Byte} {s t : State}
    (h : execSeq (.crcInit :: (xs.map .crcUpdate ++ i :: (ys.map .crcUpdate ++ [.crcRead]))) s = .next t) :
    t.HasReadCrc (crc16 (xs ++ ys)) := by
  obtain ⟨u, hu, hstate⟩ := execSeq_crcInit_crcUpdates xs (i :: (ys.map .crcUpdate ++ [.crcRead])) s
  obtain ⟨v, hi, hrest⟩ := execSeq_cons_cases (hu.symm.trans h)
  obtain ⟨hcrc, hvalid⟩ := hkeeps u v hi
  rw [hstate] at hcrc hvalid
  obtain ⟨t', ht', hread⟩ := execSeq_crcUpdates_crcRead ys hvalid
  rw [hcrc, ← crc16_append] at hread
  cases ht'.symm.trans hrest
  exact hread

/-- Settles O16: the two ways of computing two CRCs in turn, and a frame command in the middle of one. -/
theorem interleavedCrcsAreMixed : Obligations.InterleavedCrcsAreMixed := by
  refine ⟨fun xs ys s => ⟨execSeq_second_crcInit xs ys s, execSeq_no_second_crcInit xs ys s⟩, fun i hi => ?frameCommand⟩
  case frameCommand =>
    obtain ⟨hinit, hupd⟩ : i ≠ .crcInit ∧ ∀ b, i ≠ .crcUpdate b := by
      obtain ⟨sa, fc, ra, q, rfl⟩ | ⟨b, sa, fc, q, rfl⟩ | ⟨b, rfl⟩ := hi <;> simp
    have hkeeps : ∀ s t, exec i s = .next t → t.crc = s.crc ∧ t.crcValid = s.crcValid :=
      fun _ _ h => exec_keeps_crcRegisters hinit hupd h
    exact ⟨hkeeps, fun _ _ _ _ h => hasReadCrc_around hkeeps h⟩

end Sys2Proof.Machine
end

