-- ==== Sys2Proof/Proofs/UnsetCrc.lean ====
section
/-!
SUPPORT. What `crc` holds while `crc_valid` is 0 is never revealed (R25, R190, R191): a relation between two states that
differ only there, kept by every step of both.
-/

namespace Sys2Proof.Machine

/-! ## The relation -/

/-- `b` is `a` but for what `crc` holds, and not even that once `crc_valid` is 1. -/
def SameButUnsetCrc (a b : State) : Prop := ∃ v, b = a.setCrc v ∧ (a.crcValid = true → v = a.crc)

theorem SameButUnsetCrc.refl (a : State) : SameButUnsetCrc a a := ⟨a.crc, rfl, fun _ => rfl⟩

theorem SameButUnsetCrc.of_invalid {a : State} (v : Half) (h : a.crcValid = false) :
    SameButUnsetCrc a (a.setCrc v) := ⟨v, rfl, fun hv => by simp [h] at hv⟩

/-- Related states are equal when `crc_valid` is 1, and differ in `crc` alone when it is 0. -/
theorem SameButUnsetCrc.cases {a b : State} (h : SameButUnsetCrc a b) :
    b = a ∨ (a.crcValid = false ∧ ∃ v, b = a.setCrc v) := by
  obtain ⟨v, rfl, hv⟩ := h
  cases hc : a.crcValid with
  | false => exact .inr ⟨rfl, v, rfl⟩
  | true => exact .inl (by rw [hv hc]; rfl)

/-- Both outcomes stop for the same reason, or both go on in related states. -/
inductive OutcomesAgree : Host.Outcome State Fault Refusal → Host.Outcome State Fault Refusal → Prop where
  | next {a b : State} (h : SameButUnsetCrc a b) : OutcomesAgree (.next a) (.next b)
  | fault (f : Fault) : OutcomesAgree (.fault f) (.fault f)
  | refused (r : Refusal) : OutcomesAgree (.refused r) (.refused r)

theorem OutcomesAgree.refl (o : Host.Outcome State Fault Refusal) : OutcomesAgree o o := by
  cases o with
  | next a => exact .next (.refl a)
  | fault f => exact .fault f
  | refused r => exact .refused r

/-- An outcome agrees with itself, `crc` changed, when it leaves `crc_valid` 0. -/
theorem OutcomesAgree.of_mapNext (v : Half) {o : Host.Outcome State Fault Refusal}
    (h : ∀ t, o = .next t → t.crcValid = false) : OutcomesAgree o (mapNext (State.setCrc · v) o) := by
  cases o with
  | next t => exact .next (.of_invalid v (h t rfl))
  | fault f => exact .fault f
  | refused r => exact .refused r

/-! ## Every instruction keeps it -/

/-- Every instruction but the CRC commands passes on what `crc` holds. -/
theorem exec_setCrc {i : Instr} (v : Half) (s : State) (hupd : ∀ b, i ≠ .crcUpdate b) (hread : i ≠ .crcRead)
    (hinit : i ≠ .crcInit) : exec i (s.setCrc v) = mapNext (State.setCrc · v) (exec i s) :=
  exec_mapCrcRegisters (fun _ => v) id s hupd hread hinit

theorem handFrame_setCrc (v : Half) (s : State) (bs : List Byte) :
    (s.setCrc v).handFrame bs = mapNext (State.setCrc · v) (s.handFrame bs) :=
  handFrame_mapCrcRegisters (fun _ => v) id s bs

/-- CRC_INIT forgets `crc`, CRC_UPDATE and CRC_READ fault before they read it, and no other instruction reads it. -/
theorem exec_outcomesAgree (i : Instr) {a b : State} (h : SameButUnsetCrc a b) :
    OutcomesAgree (exec i a) (exec i b) := by
  obtain rfl | ⟨hc, v, rfl⟩ := h.cases
  · exact .refl _
  by_cases hinit : i = .crcInit
  · subst hinit
    exact .refl (exec .crcInit a)
  by_cases hupd : ∃ x, i = .crcUpdate x
  · obtain ⟨x, rfl⟩ := hupd
    rw [exec_crcUpdate_invalid x hc, exec_crcUpdate_invalid (s := a.setCrc v) x hc]
    exact .fault _
  by_cases hread : i = .crcRead
  · subst hread
    rw [exec_crcRead_invalid hc, exec_crcRead_invalid (s := a.setCrc v) hc]
    exact .fault _
  rw [exec_setCrc v a (not_exists.1 hupd) hread hinit]
  exact .of_mapNext v fun t ht => by simp [exec_crcValid ht, hc, hinit]

theorem handFrame_outcomesAgree (bs : List Byte) {a b : State} (h : SameButUnsetCrc a b) :
    OutcomesAgree (a.handFrame bs) (b.handFrame bs) := by
  obtain rfl | ⟨hc, v, rfl⟩ := h.cases
  · exact .refl _
  rw [handFrame_setCrc]
  refine .of_mapNext v fun t ht => ?_
  obtain ⟨-, rfl⟩ := handFrame_cases ht
  exact hc

theorem accept_outcomesAgree (e : Encoded) {a b : State} (h : SameButUnsetCrc a b) :
    OutcomesAgree (accept e a) (accept e b) := by
  unfold accept
  cases decode e with
  | ok i => exact exec_outcomesAgree i h
  | error err =>
    cases err with
    | operandTooWide => exact .refused _
    | frameTooLong => exact .refused _
    | unrecognisedFrame bytes => exact handFrame_outcomesAgree bytes h

/-! ## Every step keeps it -/

theorem SameButUnsetCrc.withPending {a b : State} (rest : List HostInput) (h : SameButUnsetCrc a b) :
    SameButUnsetCrc (a.withPending rest) (b.withPending rest) := by
  obtain ⟨v, rfl, hv⟩ := h
  exact ⟨v, rfl, hv⟩

theorem SameButUnsetCrc.marked_eq {a b : State} (h : SameButUnsetCrc a b) : b.marked = a.marked := by
  obtain ⟨v, rfl, -⟩ := h
  rfl

theorem step_outcomesAgree {a b : State} (h : SameButUnsetCrc a b) : OutcomesAgree (step a) (step b) := by
  cases ha : a.marked with
  | true =>
    rw [step_marked ha, step_marked (h.marked_eq.trans ha)]
    exact .fault _
  | false =>
    have hb : b.marked = false := h.marked_eq.trans ha
    have hpending : b.pending = a.pending := by obtain ⟨v, rfl, -⟩ := h; rfl
    match hp : a.pending with
    | [] =>
      rw [step_idle ha hp, step_idle hb (hpending.trans hp)]
      exact .next h
    | .reset :: rest =>
      have hreset : (b.withPending rest).applyReset = (a.withPending rest).applyReset := by
        obtain ⟨v, rfl, -⟩ := h
        rfl
      rw [step_reset ha hp, step_reset hb (hpending.trans hp), hreset]
      exact .refl _
    | .present e :: rest =>
      rw [step_present ha hp, step_present hb (hpending.trans hp)]
      exact accept_outcomesAgree e (h.withPending rest)

theorem advance_sameButUnsetCrc {a b : State} (h : SameButUnsetCrc a b) :
    SameButUnsetCrc (advance a) (advance b) := by
  unfold advance
  rw [h.marked_eq]
  split
  · exact h
  · have hagree := step_outcomesAgree h
    generalize step a = oa, step b = ob at hagree
    cases hagree with
    | next hnext => exact hnext
    | fault => obtain ⟨v, rfl, hv⟩ := h; exact ⟨v, rfl, hv⟩
    | refused => obtain ⟨v, rfl, hv⟩ := h; exact ⟨v, rfl, hv⟩

theorem advances_sameButUnsetCrc (n : Nat) {a b : State} (h : SameButUnsetCrc a b) :
    SameButUnsetCrc (advances n a) (advances n b) := by
  induction n generalizing a b with
  | zero => exact h
  | succ n ih => exact ih (advance_sameButUnsetCrc h)

/-- Settles O19: the two machines begin in related states, and related states agree on all that the claim lists. -/
theorem nothingRevealsTheCrcOfReset : Obligations.NothingRevealsTheCrcOfReset := by
  intro s v n hs a b
  obtain ⟨w, hb, hw⟩ : SameButUnsetCrc a b := advances_sameButUnsetCrc n (.of_invalid v hs)
  rw [hb]
  exact ⟨rfl, rfl, rfl, rfl, rfl, rfl, rfl, fun ha => (hw ha).symm⟩

end Sys2Proof.Machine
end

