-- ==== Sys2Proof/Proofs/Codec.lean ====
section
/-!
SUPPORT. The encoder and the decoder are inverse to each other on well-formed instructions (30_encoding.md sections 1 and
5), and what a reader of a response stream finds (section 4).
-/

namespace Sys2Proof.Machine

open Claims

/-! ## Bytes in pairs -/

theorem bigEndian_be16 (h l : Byte) : bigEndian (be16 h l) = [h, l] := by rw [bigEndian, hi_be16, lo_be16]

theorem littleEndian_be16 (h l : Byte) : littleEndian (be16 h l) = [l, h] := by rw [littleEndian, hi_be16, lo_be16]

/-- An even number of bytes is the wire form of the words they pair up to (R43, R44). -/
theorem wordBytes_pairWords {bs : List Byte} {n : Nat} (h : bs.length = 2 * n) :
    wordBytes (pairWords bs) = bs ∧ (pairWords bs).length = n := by
  induction n generalizing bs with
  | zero =>
    obtain rfl := List.length_eq_zero_iff.1 h
    exact ⟨rfl, rfl⟩
  | succ n ih =>
    match bs, h with
    | x :: y :: bs, h =>
      obtain ⟨hbytes, hlen⟩ := ih (bs := bs) (by simp only [List.length_cons] at h; omega)
      simp [pairWords, wordBytes, hbytes, hlen]

/-! ## Decode of encode -/

theorem decode_encode_of_commandWord {cmd : Nat} {i : Instr} (h : CommandWord cmd i) : decode (encode i) = .ok i := by
  obtain ⟨c, henc, -, hdec⟩ := h
  rw [henc, hdec]

theorem decode_frame_of_some {fmt : FrameFormat} {bs : List Byte} {i : Instr} (h : decodeFrame fmt bs = some i) :
    decode (.frame fmt bs) = .ok i := by
  simp only [decode, h]

theorem responseWordsWf_iff (ws : List Half) : responseWordsWf ws = true ↔ 1 ≤ ws.length ∧ ws.length ≤ 125 := by
  simp [responseWordsWf]

/-- The third byte of a response body counts its data bytes, as long as they fit one byte (R61, R64). -/
theorem toNat_byteCount {ws : List Half} (h : ws.length ≤ 125) :
    (BitVec.ofNat 8 (2 * ws.length)).toNat = 2 * ws.length := by
  rw [BitVec.toNat_ofNat, Nat.mod_eq_of_lt (by omega)]

/-- A response frame of 1 to 125 words decodes to the row of its function code. -/
theorem decodeResponseFrame_respBody (sa : Byte) {fc : Byte} {ws : List Half} (c : Half)
    (hf : supportedFunction fc = true) (h : responseWordsWf ws = true) :
    decodeResponseFrame (respBody sa fc ws ++ littleEndian c) =
      if fc = Config.fcReadHolding then some (.frameReadResponseFc3 sa ws c)
      else some (.frameReadResponseFc4 sa ws c) := by
  obtain ⟨hmin, hmax⟩ := (responseWordsWf_iff ws).1 h
  have hcount := toNat_byteCount hmax
  have hlen : (wordBytes ws).length = 2 * ws.length := length_wordBytes ws
  have hmsb : fc.msb = false := function_msb_of_supported hf
  have htake : (wordBytes ws ++ littleEndian c).take (2 * ws.length) = wordBytes ws := List.take_left' hlen
  have hdrop : (wordBytes ws ++ littleEndian c).drop (2 * ws.length) = littleEndian c := List.drop_left' hlen
  have hfit : (wordBytes ws ++ littleEndian c).length + 3 = responseLength fc (BitVec.ofNat 8 (2 * ws.length)) := by
    simp [responseLength, hmsb, hcount, hlen]
    omega
  change decodeResponseFrame (sa :: fc :: BitVec.ofNat 8 (2 * ws.length) :: (wordBytes ws ++ littleEndian c)) = _
  rw [decodeResponseFrame, if_pos ⟨hfit, by omega, by omega, by rw [Config.maxQty]; omega⟩, hcount, hdrop, htake]
  simp only [littleEndian, be16_hi_lo, pairWords_wordBytes]
  obtain rfl | rfl := (supportedFunction_iff fc).1 hf <;> rfl

/-- A frame of the request layout decodes to the row of its function code. -/
theorem decodeRequestFrame_reqBody (sa fc : Byte) (ra q c : Half) :
    decodeRequestFrame (reqBody sa fc ra q ++ littleEndian c) =
      if fc = Config.fcReadHolding then some (.frameReadRequestFc3 sa ra q c)
      else if fc = Config.fcReadInput then some (.frameReadRequestFc4 sa ra q c)
      else none := by
  simp [decodeRequestFrame, reqBody, bigEndian, littleEndian]

theorem decode_encode_request (sa : Byte) (ra q c : Half) :
    decode (encode (.frameReadRequestFc3 sa ra q c)) = .ok (.frameReadRequestFc3 sa ra q c) ∧
      decode (encode (.frameReadRequestFc4 sa ra q c)) = .ok (.frameReadRequestFc4 sa ra q c) := by
  constructor
  · exact decode_frame_of_some (decodeRequestFrame_reqBody sa Config.fcReadHolding ra q c)
  · exact decode_frame_of_some (decodeRequestFrame_reqBody sa Config.fcReadInput ra q c)

theorem decode_encode_response (sa : Byte) {ws : List Half} (c : Half) (h : responseWordsWf ws = true) :
    decode (encode (.frameReadResponseFc3 sa ws c)) = .ok (.frameReadResponseFc3 sa ws c) ∧
      decode (encode (.frameReadResponseFc4 sa ws c)) = .ok (.frameReadResponseFc4 sa ws c) :=
  ⟨decode_frame_of_some (decodeResponseFrame_respBody sa c (by decide) h),
    decode_frame_of_some (decodeResponseFrame_respBody sa c (by decide) h)⟩

/-- A frame of the exception layout decodes by its function byte, the rows of 0x83 and 0x84 first. -/
theorem decodeExceptionFrame_excBodyRaw (sa f e : Byte) (c : Half) :
    decodeExceptionFrame (excBodyRaw sa f e ++ littleEndian c) =
      if f = 0x83#8 then some (.frameExceptionFc3 sa e c)
      else if f = 0x84#8 then some (.frameExceptionFc4 sa e c)
      else if f.msb then some (.frameExceptionAnyBit7 sa f e c)
      else none := by
  simp [decodeExceptionFrame, excBodyRaw, littleEndian]

theorem otherExceptionCode_iff (f : Byte) :
    otherExceptionCode f = true ↔ f.msb = true ∧ f ≠ 0x83#8 ∧ f ≠ 0x84#8 := by
  simp [otherExceptionCode, and_assoc]

theorem decode_encode_exceptionAnyBit7 (sa : Byte) {f : Byte} (e : Byte) (c : Half) (h : otherExceptionCode f = true) :
    decode (encode (.frameExceptionAnyBit7 sa f e c)) = .ok (.frameExceptionAnyBit7 sa f e c) := by
  obtain ⟨hmsb, hne3, hne4⟩ := (otherExceptionCode_iff f).1 h
  refine decode_frame_of_some ((decodeExceptionFrame_excBodyRaw sa f e c).trans ?_)
  rw [if_neg hne3, if_neg hne4, if_pos hmsb]

/-- Settles O45: the commands by their command words, the frames by their layouts. -/
theorem decodeOfEncodeIsTheInstruction : Obligations.DecodeOfEncodeIsTheInstruction := by
  intro i hi
  cases i with
  | crcInit => exact decode_encode_of_commandWord commandWord_crcInit
  | crcUpdate b => exact decode_encode_of_commandWord (commandWord_crcUpdate b)
  | crcRead => exact decode_encode_of_commandWord commandWord_crcRead
  | encReq sa fc ra q => exact decode_encode_of_commandWord (commandWord_encReq sa fc ra q)
  | decResp buf sa fc q => exact decode_encode_of_commandWord (commandWord_decResp sa fc q hi)
  | parseReq buf => exact decode_encode_of_commandWord (commandWord_parseReq hi)
  | reserved cmd => exact decode_reserved rfl (by simpa [Instr.wf] using hi)
  | frameReadRequestFc3 sa ra q c => exact (decode_encode_request sa ra q c).1
  | frameReadRequestFc4 sa ra q c => exact (decode_encode_request sa ra q c).2
  | frameReadResponseFc3 sa ws c => exact (decode_encode_response sa c hi).1
  | frameReadResponseFc4 sa ws c => exact (decode_encode_response sa c hi).2
  | frameExceptionFc3 sa e c => exact decode_frame_of_some (decodeExceptionFrame_excBodyRaw sa 0x83#8 e c)
  | frameExceptionFc4 sa e c => exact decode_frame_of_some (decodeExceptionFrame_excBodyRaw sa 0x84#8 e c)
  | frameExceptionAnyBit7 sa f e c => exact decode_encode_exceptionAnyBit7 sa e c hi

/-! ## Encode of decode, for frames -/

/-- Eight bytes are a request body with a CRC field (R60). -/
theorem decodeRequestFrame_cases {bs : List Byte} {i : Instr} (h : decodeRequestFrame bs = some i) :
    ∃ sa ra q c, (i = .frameReadRequestFc3 sa ra q c ∨ i = .frameReadRequestFc4 sa ra q c) ∧ frameBytes i = bs := by
  unfold decodeRequestFrame at h
  split at h
  · rename_i sa f a1 a0 q1 q0 c0 c1
    refine ⟨sa, be16 a1 a0, be16 q1 q0, be16 c1 c0, ?_⟩
    split at h
    · rename_i hf
      cases h
      exact ⟨.inl rfl, by simp [frameBytes, reqBody, bigEndian_be16, littleEndian_be16, hf]⟩
    · split at h
      · rename_i hf
        cases h
        exact ⟨.inr rfl, by simp [frameBytes, reqBody, bigEndian_be16, littleEndian_be16, hf]⟩
      · cases h
  · cases h

/-- The frame that a byte count agrees with is a response body with a CRC field (R61). -/
theorem eq_respBody_of_byteCount (sa f : Byte) {bc c0 c1 : Byte} {rest : List Byte} (heven : bc.toNat % 2 = 0)
    (hlen : bc.toNat ≤ rest.length) (hfield : rest.drop bc.toNat = [c0, c1]) :
    sa :: f :: bc :: rest = respBody sa f (pairWords (rest.take bc.toNat)) ++ littleEndian (be16 c1 c0) ∧
      (pairWords (rest.take bc.toNat)).length = bc.toNat / 2 := by
  have hdouble : bc.toNat = 2 * (bc.toNat / 2) := by omega
  obtain ⟨hbytes, hwords⟩ := wordBytes_pairWords (bs := rest.take bc.toNat) (n := bc.toNat / 2) (by
    rw [List.length_take_of_le hlen]
    exact hdouble)
  refine ⟨?_, hwords⟩
  rw [respBody, hbytes, hwords, ← hdouble, littleEndian_be16, ← hfield, BitVec.ofNat_toNat, BitVec.setWidth_eq,
    List.append_assoc, List.take_append_drop]
  rfl

theorem decodeResponseFrame_cases {bs : List Byte} {i : Instr} (h : decodeResponseFrame bs = some i) :
    ∃ sa ws c, (i = .frameReadResponseFc3 sa ws c ∨ i = .frameReadResponseFc4 sa ws c) ∧
      responseWordsWf ws = true ∧ frameBytes i = bs := by
  unfold decodeResponseFrame at h
  split at h
  · rename_i sa f bc rest
    split at h
    · rename_i hfit
      obtain ⟨-, heven, hmin, hmax⟩ := hfit
      split at h
      · rename_i c0 c1 hfield
        have hlen : bc.toNat ≤ rest.length := by
          have := congrArg List.length hfield
          simp only [List.length_drop, List.length_cons, List.length_nil] at this
          omega
        obtain ⟨hbytes, hwords⟩ := eq_respBody_of_byteCount sa f heven hlen hfield
        have hwf : responseWordsWf (pairWords (rest.take bc.toNat)) = true := by
          rw [responseWordsWf_iff, hwords]
          rw [Config.maxQty] at hmax
          omega
        refine ⟨sa, pairWords (rest.take bc.toNat), be16 c1 c0, ?_⟩
        split at h
        · rename_i hf
          cases h
          exact ⟨.inl rfl, hwf, by rw [hbytes, hf]; rfl⟩
        · split at h
          · rename_i hf
            cases h
            exact ⟨.inr rfl, hwf, by rw [hbytes, hf]; rfl⟩
          · cases h
      · cases h
    · cases h
  · cases h

theorem decodeExceptionFrame_cases {bs : List Byte} {i : Instr} (h : decodeExceptionFrame bs = some i) :
    ∃ sa f e c, (i = .frameExceptionFc3 sa e c ∨ i = .frameExceptionFc4 sa e c ∨
      (i = .frameExceptionAnyBit7 sa f e c ∧ otherExceptionCode f = true)) ∧ frameBytes i = bs := by
  unfold decodeExceptionFrame at h
  split at h
  · rename_i sa f e c0 c1
    refine ⟨sa, f, e, be16 c1 c0, ?_⟩
    split at h
    · rename_i hf
      cases h
      exact ⟨.inl rfl, by simp [frameBytes, excBodyRaw, littleEndian_be16, hf]⟩
    · split at h
      · rename_i hf
        cases h
        exact ⟨.inr (.inl rfl), by simp [frameBytes, excBodyRaw, littleEndian_be16, hf]⟩
      · split at h
        · cases h
          exact ⟨.inr (.inr ⟨rfl, (otherExceptionCode_iff f).2 ⟨‹_›, ‹_›, ‹_›⟩⟩),
            by simp [frameBytes, excBodyRaw, littleEndian_be16]⟩
        · cases h
  · cases h

/-- Settles O46: the cases of each format's decoder. -/
theorem encodeOfDecodedFrameIsTheFrame : Obligations.EncodeOfDecodedFrameIsTheFrame := by
  intro fmt bs i h
  have hdec : decodeFrame fmt bs = some i := by
    rw [decode] at h
    split at h
    · cases h
      assumption
    · cases h
  cases fmt with
  | rtuRequest =>
    obtain ⟨sa, ra, q, c, rfl | rfl, rfl⟩ := decodeRequestFrame_cases hdec
    · exact ⟨rfl, rfl⟩
    · exact ⟨rfl, rfl⟩
  | rtuResponse =>
    obtain ⟨sa, ws, c, rfl | rfl, hwf, rfl⟩ := decodeResponseFrame_cases hdec
    · exact ⟨hwf, rfl⟩
    · exact ⟨hwf, rfl⟩
  | rtuException =>
    obtain ⟨sa, f, e, c, rfl | rfl | ⟨rfl, hf⟩, rfl⟩ := decodeExceptionFrame_cases hdec
    · exact ⟨rfl, rfl⟩
    · exact ⟨rfl, rfl⟩
    · exact ⟨hf, rfl⟩

/-! ## A response stream (R69) -/

/-- A reader splits off the frame whose length its function byte and third byte tell. -/
theorem splitResponse_append {sa f third : Byte} {tail rest : List Byte}
    (h : (sa :: f :: third :: tail).length = responseLength f third) :
    splitResponse (sa :: f :: third :: tail ++ rest) = some (sa :: f :: third :: tail, rest) := by
  have hfit : responseLength f third ≤ (sa :: f :: third :: tail ++ rest).length := by
    rw [List.length_append]
    omega
  change (if responseLength f third ≤ (sa :: f :: third :: tail ++ rest).length then _ else _) = _
  rw [if_pos hfit]
  change some (List.take _ (sa :: f :: third :: tail ++ rest), List.drop _ (sa :: f :: third :: tail ++ rest)) = _
  rw [List.take_left' h, List.drop_left' h]

/-- Settles O11: the length of a normal response is told by its byte count, that of an exception response is fixed. -/
theorem streamReaderFindsTheFirstFrame : Obligations.StreamReaderFindsTheFirstFrame := by
  refine ⟨fun sa fc ws rest hmsb hmin hmax => ?response, fun sa fc e rest => ?exception⟩
  case response =>
    refine splitResponse_append ((length_respFrame sa fc ws).trans ?_)
    rw [responseLength, if_neg (Bool.eq_false_iff.1 hmsb), toNat_byteCount hmax]
  case exception =>
    have hmsb : (fc ||| Config.excFlag).msb = true := BitVec.msb_or.trans (Bool.or_true _)
    exact splitResponse_append (if_pos hmsb).symm

end Sys2Proof.Machine
end

