-- ==== Sys2Proof/Proofs/AcceptedResponses.lean ====
section
/-!
SUPPORT. The frames DEC_RESP accepts are the slave's correct responses and no others (R61, R130, R140); the slave addresses
ENC_REQ takes are all of them (R67, R199).
-/

namespace Sys2Proof.Machine

open Claims

/-! ## An accepted response -/

/-- A body with the length its byte count tells is the response body of some words (R61). -/
theorem exists_eq_respBody {body : List Byte} {n : Nat} (hlen : body.length = 2 * n + 3)
    (hcount : (byteAt body 2).toNat = 2 * n) :
    ∃ ws, body = respBody (byteAt body 0) (byteAt body 1) ws ∧ ws.length = n := by
  match body, hlen with
  | sa :: fc :: bc :: data, hlen =>
    have hdata : data.length = 2 * n := by simp only [List.length_cons] at hlen; omega
    obtain ⟨hbytes, hwords⟩ := wordBytes_pairWords hdata
    have hbc : BitVec.ofNat 8 (2 * n) = bc := by
      rw [← hcount, BitVec.ofNat_toNat, BitVec.setWidth_eq]
      rfl
    exact ⟨pairWords data, by rw [respBody, hbytes, hwords, hbc]; rfl, hwords⟩

/-- A frame that DEC_RESP accepts is the response frame of some words (R134 to R137). -/
theorem exists_eq_respFrame {m : ExcMatch} {f : List Byte} {sa fc : Byte} {q : Half} {ws : List Half}
    (h : decRespResult m f sa fc q = .ok (.words ws)) : ∃ ws', f = respFrame sa fc ws' ∧ ws'.length = q.toNat := by
  obtain ⟨hfive, hok⟩ := crcOk_of_decRespResult (m := m) (f := f) (sa := sa) (fc := fc) (q := q) (by simp [h])
  obtain ⟨-, hsa, hfc, hcount, hlen⟩ := decRespResult_eq_words h
  obtain ⟨body, rfl⟩ := exists_eq_withCrc_of_crcOk (by omega) hok
  have hbody : body.length = 2 * q.toNat + 3 := by rw [length_withCrc] at hlen; omega
  rw [byteAt_withCrc_of_lt (by omega)] at hsa hfc hcount
  obtain ⟨ws', heq, hwords⟩ := exists_eq_respBody hbody hcount
  exact ⟨ws', congrArg withCrc (heq.trans (by rw [hsa, hfc])), hwords⟩

/-- DEC_RESP accepts the response frames of the expected slave, function code and number of words, and no other bytes. -/
theorem decRespResult_eq_words_iff (m : ExcMatch) (f : List Byte) (sa : Byte) {fc : Byte} {q : Half} (ws : List Half)
    (hf : supportedFunction fc = true) (hq : quantityInRange q = true) :
    decRespResult m f sa fc q = .ok (.words ws) ↔ f = respFrame sa fc ws ∧ ws.length = q.toNat := by
  constructor
  · intro h
    obtain ⟨ws', rfl, hlen⟩ := exists_eq_respFrame h
    rw [decRespResult_respFrame m sa hf hq hlen] at h
    cases h
    exact ⟨rfl, hlen⟩
  · rintro ⟨rfl, hlen⟩
    exact decRespResult_respFrame m sa hf hq hlen

/-- A response frame of a quantity in range fits the buffer (R64). -/
theorem length_respFrame_le (sa fc : Byte) {q : Half} {ws : List Half} (hq : quantityInRange q = true)
    (hlen : ws.length = q.toNat) : (respFrame sa fc ws).length ≤ Config.frameBufBytes := by
  obtain ⟨-, hmax⟩ := (quantityInRange_iff q).1 hq
  rw [length_respFrame, Config.frameBufBytes]
  omega

/-- Settles O34: what the command returns is `decRespResult` of the frame (`decRespResult_eq_words_iff`). -/
theorem decRespAcceptsExactlyCorrectResponses : Obligations.DecRespAcceptsExactlyCorrectResponses := by
  intro f sa fc q ws s hf hq
  rw [blockCode_iff] at hf
  rw [inRange_iff] at hq
  constructor
  · intro h
    obtain ⟨-, -, -, hres⟩ := decRespResult_of_returns h
    exact (decRespResult_eq_words_iff _ f sa ws hf hq).1 hres
  · rintro ⟨rfl, hlen⟩
    exact (returns_decResp_presented_iff sa _ s (length_respFrame_le sa fc hq hlen) hf hq).2
      (decRespResult_respFrame _ sa hf hq hlen)

/-! ## The slave address of a request -/

/-- Settles O21: ENC_REQ does not look at the slave address, which is the first byte of its frame. -/
theorem slaveAddressIsAHostPremiseOnly : Obligations.SlaveAddressIsAHostPremiseOnly := by
  intro sa fc ra q s hsa hf hq
  rw [blockCode_iff] at hf
  rw [inRange_iff] at hq
  have houtside : sa.toNat = 0 ∨ 248 ≤ sa.toNat := by
    unfold hostSlaveAddress at hsa
    omega
  exact ⟨houtside.imp_left BitVec.eq_of_toNat_eq, reqFrame sa fc ra q, returns_encReq_reqFrame sa ra s hf hq, rfl⟩

end Sys2Proof.Machine
end

