-- ==== Sys2Proof/Proofs/OperandUse.lean ====
section
/-!
SUPPORT. Which operands a command uses and what comes of one that does not fit (R26, R171): the decoder's answers, the step
that accepts them, and the instructions that are refused.
-/

namespace Sys2Proof.Machine

open Claims

/-! ## Operands that do not fit -/

/-- A computation on an operand is rejected as too wide when it is for every operand that fits. -/
theorem operand_bind_of_wide {α : Type} {w v : Nat} {k : BitVec w → Except DecodeError α}
    (h : v < 2 ^ w → k (BitVec.ofNat w v) = .error .operandTooWide) :
    (operand w v >>= k) = .error .operandTooWide := by
  rcases Nat.lt_or_ge v (2 ^ w) with hv | hv
  · rw [operand_of_lt hv, bind_ok, h hv]
  · rw [operand_of_ge hv, bind_error]

theorem operandBytes_cases (vs : List Nat) :
    (∃ bs, operandBytes vs = .ok bs) ∨ operandBytes vs = .error .operandTooWide := by
  by_cases hwide : ∃ v ∈ vs, 256 ≤ v
  · exact .inr (operandBytes_of_wide hwide)
  · left
    induction vs with
    | nil => exact ⟨[], rfl⟩
    | cons v vs ih =>
      obtain ⟨hv, hvs⟩ : v < 256 ∧ ∀ x ∈ vs, x < 256 := by simpa using hwide
      obtain ⟨bs, hbs⟩ := ih (by simpa using hvs)
      exact ⟨_, by rw [operandBytes, operand_of_lt (w := 8) hv, hbs]⟩

section
variable {inp : BufInput}

theorem bufOperand_of_long (h : 256 < inp.len) : bufOperand (some inp) = .error .frameTooLong := if_pos h

theorem bufOperand_of_wide (hl : inp.len ≤ 256) (h : ∃ v ∈ inp.bytes.take inp.len, 256 ≤ v) :
    bufOperand (some inp) = .error .operandTooWide := by
  rw [bufOperand, if_neg (Nat.not_lt.2 hl), operandBytes_of_wide h]

/-- A buffer operand that is not too long is taken or rejected as too wide. -/
theorem bufOperand_cases {b : Option BufInput} (h : ∀ inp, b = some inp → inp.len ≤ 256) :
    (∃ buf, bufOperand b = .ok buf) ∨ bufOperand b = .error .operandTooWide := by
  cases b with
  | none => exact .inl ⟨.held, rfl⟩
  | some inp =>
    rw [bufOperand, if_neg (Nat.not_lt.2 (h inp rfl))]
    obtain ⟨bs, hbs⟩ | hwide := operandBytes_cases (inp.bytes.take inp.len)
    · rw [hbs]
      exact .inl ⟨_, rfl⟩
    · rw [hwide]
      exact .inr rfl

end

/-! ## What the six command words decode to -/

section
variable {c : CommandInput}

theorem decode_word {v : Byte} (h : c.cmd = v.toNat) : decode (.command c) = decodeOperands v c :=
  decodeCommand_of_word h

theorem decode_of_wide_word (h : 256 ≤ c.cmd) : decode (.command c) = .error .operandTooWide :=
  decodeCommand_of_wide h

theorem decode_crcUpdate (h : c.cmd = 0x02) :
    decode (.command c) = if c.b < 256 then .ok (.crcUpdate (BitVec.ofNat 8 c.b)) else .error .operandTooWide := by
  rw [decode_word (v := cmdCrcUpdate) h, decodeOperands_crcUpdate]
  split
  · rw [operand_of_lt (w := 8) ‹_›, bind_ok]
  · exact operand_bind_of_wide fun hb => absurd hb ‹_›

theorem decode_encReq (h : c.cmd = 0x10) :
    decode (.command c) =
      if c.sa < 256 ∧ c.fc < 256 ∧ c.ra < 65536 ∧ c.qty < 65536 then
        .ok (.encReq (BitVec.ofNat 8 c.sa) (BitVec.ofNat 8 c.fc) (BitVec.ofNat 16 c.ra) (BitVec.ofNat 16 c.qty))
      else .error .operandTooWide := by
  rw [decode_word (v := cmdEncReq) h, decodeOperands_encReq]
  split
  · rename_i hfit
    obtain ⟨hsa, hfc, hra, hq⟩ := hfit
    rw [operand_of_lt (w := 8) hsa, operand_of_lt (w := 8) hfc, operand_of_lt (w := 16) hra,
      operand_of_lt (w := 16) hq]
    rfl
  · rename_i hwide
    exact operand_bind_of_wide fun hsa => operand_bind_of_wide fun hfc => operand_bind_of_wide fun hra =>
      operand_bind_of_wide fun hq => absurd ⟨hsa, hfc, hra, hq⟩ hwide

theorem decode_decResp (h : c.cmd = 0x20) :
    decode (.command c) =
      (bufOperand c.buf >>= fun buf => operand 8 c.sa >>= fun sa => operand 8 c.fc >>= fun fc =>
        operand 16 c.qty >>= fun qty => .ok (.decResp buf sa fc qty)) := decode_word (v := cmdDecResp) h

theorem decode_parseReq (h : c.cmd = 0x21) :
    decode (.command c) = (bufOperand c.buf >>= fun buf => .ok (.parseReq buf)) := decode_word (v := cmdParseReq) h

/-- A buffer operand that is rejected rejects its command. -/
theorem decode_of_bufOperand_error {e : DecodeError} (h : c.cmd = 0x20 ∨ c.cmd = 0x21)
    (hbuf : bufOperand c.buf = .error e) : decode (.command c) = .error e := by
  obtain h | h := h
  · rw [decode_decResp h, hbuf, bind_error]
  · rw [decode_parseReq h, hbuf, bind_error]

theorem decode_of_long_frame {b : BufInput} (h : c.cmd = 0x20 ∨ c.cmd = 0x21) (hb : c.buf = some b)
    (hl : 256 < b.len) : decode (.command c) = .error .frameTooLong :=
  decode_of_bufOperand_error h (by rw [hb, bufOperand_of_long hl])

theorem decode_of_wide_frame {b : BufInput} (h : c.cmd = 0x20 ∨ c.cmd = 0x21) (hb : c.buf = some b)
    (hl : b.len ≤ 256) (hwide : ∃ v ∈ b.bytes.take b.len, 256 ≤ v) :
    decode (.command c) = .error .operandTooWide :=
  decode_of_bufOperand_error h (by rw [hb, bufOperand_of_wide hl hwide])

theorem decode_decResp_of_wide (h : c.cmd = 0x20) (hl : ∀ b, c.buf = some b → b.len ≤ 256)
    (hwide : 256 ≤ c.sa ∨ 256 ≤ c.fc ∨ 65536 ≤ c.qty) : decode (.command c) = .error .operandTooWide := by
  obtain ⟨buf, hbuf⟩ | hbuf := bufOperand_cases hl
  · rw [decode_decResp h, hbuf, bind_ok]
    exact operand_bind_of_wide fun hsa => operand_bind_of_wide fun hfc => operand_bind_of_wide fun hq => by omega
  · exact decode_of_bufOperand_error (.inl h) hbuf

end

/-! ## The step that accepts a rejected command -/

theorem step_of_decode_error {s : State} {e : Encoded} {err : DecodeError} {rest : List HostInput}
    (hm : s.marked = false) (hp : s.pending = .present e :: rest) (h : decode e = .error err) :
    step s = rejectInput err (s.withPending rest) := by
  rw [step_present hm hp, accept, h]

theorem marked_eq_false {s : State} (hfault : s.faultMark = false) (hrefused : s.refusedMark = false) :
    s.marked = false := by
  rw [State.marked_eq, hfault, hrefused]
  rfl

/-- Settles O44: one lemma of the decoder for each clause. -/
theorem onlyUsedOperandsMatter : Obligations.OnlyUsedOperandsMatter := by
  refine ⟨fun c h => decode_word (v := cmdCrcInit) h, fun c h => decode_word (v := cmdCrcRead) h,
    fun c h => decode_crcUpdate h, fun c h => decode_encReq h, fun c b h hb hl => decode_of_long_frame h hb hl,
    fun c d hc hd hsa hfc hq hbuf => ?decResp, fun c d hc hd hbuf => ?parseReq,
    fun c b h hb hl hwide => decode_of_wide_frame h hb hl hwide, fun c h hl hwide => decode_decResp_of_wide h hl hwide,
    fun c h => decode_of_wide_word h, fun c e s rest hfault hrefused hp hd => ?refused⟩
  case decResp => rw [decode_decResp hc, decode_decResp hd, hsa, hfc, hq, hbuf]
  case parseReq => rw [decode_parseReq hc, decode_parseReq hd, hbuf]
  case refused =>
    have hstep := step_of_decode_error (marked_eq_false hfault hrefused) hp hd
    cases e with
    | operandTooWide => exact .inl ⟨rfl, hstep⟩
    | frameTooLong => exact .inr ⟨rfl, hstep⟩
    | unrecognisedFrame bs => exact absurd hd (decodeCommand_ne_unrecognisedFrame c bs)

/-- Settles O42: each word and frame is closed, and the decoder computes. -/
theorem commandWordsSelectTheirCommands : Obligations.CommandWordsSelectTheirCommands := by
  refine ⟨rfl, rfl, rfl, rfl, rfl, rfl, ?_, ?_, ?_⟩ <;> rfl

/-! ## The instructions that are refused (R171) -/

/-- A response frame of at most 125 words fits the frame input buffer (R64). -/
theorem length_responseRow_le (sa : Byte) {ws : List Half} (c : Half) (h : ws.length ≤ 125) :
    (frameBytes (.frameReadResponseFc3 sa ws c)).length ≤ Config.frameBufBytes ∧
      (frameBytes (.frameReadResponseFc4 sa ws c)).length ≤ Config.frameBufBytes := by
  obtain ⟨h3, h4⟩ := length_frameBytes_response sa ws c
  rw [h3, h4, Config.frameBufBytes]
  omega

theorem length_exceptionRow_le (sa f e : Byte) (c : Half) :
    (frameBytes (.frameExceptionAnyBit7 sa f e c)).length ≤ Config.frameBufBytes := by
  simp [frameBytes, Config.frameBufBytes]

/-- The frame rows of well-formed instructions fit the frame input buffer (R41, R64). -/
theorem length_frameBytes_le {i : Instr} (h : i.wf = true) : (frameBytes i).length ≤ Config.frameBufBytes := by
  cases i with
  | frameReadResponseFc3 sa ws c => exact (length_responseRow_le sa c ((responseWordsWf_iff ws).1 h).2).1
  | frameReadResponseFc4 sa ws c => exact (length_responseRow_le sa c ((responseWordsWf_iff ws).1 h).2).2
  | _ => simp [frameBytes, Config.frameBufBytes]

theorem frameBytes_ne_nil {i : Instr} (h : isCommand i = false) : frameBytes i ≠ [] := by
  cases i with
  | crcInit | crcUpdate | crcRead | encReq | decResp | parseReq | reserved => cases h
  | _ => simp [frameBytes, reqBody, respBody, excBodyRaw]

theorem frameBytes_eq_nil {i : Instr} (h : isCommand i = true) : frameBytes i = [] := by
  cases i with
  | crcInit | crcUpdate | crcRead | encReq | decResp | parseReq | reserved => rfl
  | _ => cases h

/-- A frame row that fits the buffer is never refused: it fills the buffer. -/
theorem exec_frameRow_of_le {i : Instr} (s : State) (hi : isCommand i = false)
    (h : (frameBytes i).length ≤ Config.frameBufBytes) : exec i s = .next (s.fill (frameBytes i)) := by
  rw [exec_frameRow i s (frameBytes_ne_nil hi), handFrame_next h]

/-- A presented frame that fits, or the frame in the buffer, is no longer than the buffer. -/
theorem len_present_le {b : BufOperand} {s : State} (hb : b.wf = true) (hs : s.len ≤ 256) :
    (s.present b).len ≤ Config.frameBufBytes := by
  cases b with
  | held => exact hs
  | presented bs => exact of_decide_eq_true hb

/-- The refusal table lists the well-formed instruction `i` (R171). -/
def ListedRefusal (i : Instr) : Prop :=
  (∃ cmd, i = .reserved cmd) ∨ (∃ sa fc ra q, i = .encReq sa fc ra q ∧ ¬ BlockCode fc) ∨
    ∃ b sa fc q, i = .decResp b sa fc q ∧ (¬ BlockCode fc ∨ ¬ InRange q)

/-- Every other well-formed instruction completes or faults. -/
theorem listedRefusal_of_exec {i : Instr} {s : State} {r : Refusal} (hi : i.wf = true) (hs : s.len ≤ 256)
    (h : exec i s = .refused r) : ListedRefusal i := by
  cases i with
  | crcInit => cases h
  | crcUpdate b =>
    cases hv : s.crcValid with
    | false => rw [exec_crcUpdate_invalid b hv] at h; cases h
    | true => rw [exec_crcUpdate_valid b hv] at h; cases h
  | crcRead =>
    cases hv : s.crcValid with
    | false => rw [exec_crcRead_invalid hv] at h; cases h
    | true => rw [exec_crcRead_valid hv] at h; cases h
  | encReq sa fc ra q =>
    refine .inr (.inl ⟨sa, fc, ra, q, rfl, fun hf => ?_⟩)
    rw [exec_encReq, if_pos ((blockCode_iff fc).1 hf)] at h
    cases h
  | decResp b sa fc q =>
    refine .inr (.inr ⟨b, sa, fc, q, rfl, not_and_or.1 fun ⟨hf, hq⟩ => ?_⟩)
    rw [exec_decResp sa (len_present_le hi hs) ((blockCode_iff fc).1 hf) ((inRange_iff q).1 hq)] at h
    cases h
  | parseReq b =>
    rw [exec_parseReq (len_present_le hi hs)] at h
    cases h
  | reserved cmd => exact .inl ⟨cmd, rfl⟩
  | _ =>
    rw [exec_frameRow_of_le s rfl (length_frameBytes_le hi)] at h
    cases h

section
variable {b : BufOperand} {fc : Byte} {q : Half} {s : State}

theorem exec_decResp_of_not_blockCode (sa : Byte) (q : Half) (hb : b.wf = true) (hs : s.len ≤ 256)
    (hf : ¬ BlockCode fc) : exec (.decResp b sa fc q) s = .refused .unsupportedFunction :=
  exec_decResp_of_unsupported sa q (len_present_le hb hs) (mt (blockCode_iff fc).2 hf)

theorem exec_decResp_of_blockCode_not_inRange (sa : Byte) (hb : b.wf = true) (hs : s.len ≤ 256) (hf : BlockCode fc)
    (hq : ¬ InRange q) : exec (.decResp b sa fc q) s = .refused .expectedQuantityOutOfRange :=
  exec_decResp_of_not_inRange sa (len_present_le hb hs) ((blockCode_iff fc).1 hf) (mt (inRange_iff q).2 hq)

end

theorem exec_of_listedRefusal {i : Instr} {s : State} (hi : i.wf = true) (hs : s.len ≤ 256) (h : ListedRefusal i) :
    ∃ r, exec i s = .refused r := by
  obtain ⟨cmd, rfl⟩ | ⟨sa, fc, ra, q, rfl, hf⟩ | ⟨b, sa, fc, q, rfl, hbad⟩ := h
  · exact ⟨_, exec_reserved cmd s⟩
  · exact ⟨_, exec_encReq_of_unsupported sa ra q s (mt (blockCode_iff fc).2 hf)⟩
  · by_cases hf : BlockCode fc
    · exact ⟨_, exec_decResp_of_blockCode_not_inRange sa hi hs hf (hbad.resolve_left (not_not.2 hf))⟩
    · exact ⟨_, exec_decResp_of_not_blockCode sa q hi hs hf⟩

/-- A presented frame longer than the buffer is refused before any other check. -/
theorem withFrameOperand_of_long {bs : List Byte} (s : State) (k : State → Host.Outcome State Fault Refusal)
    (h : 256 < bs.length) : withFrameOperand (.presented bs) s k = .refused .frameTooLong := if_pos h

theorem exec_decResp_of_long {bs : List Byte} (sa fc : Byte) (q : Half) (s : State) (h : 256 < bs.length) :
    exec (.decResp (.presented bs) sa fc q) s = .refused .frameTooLong := by
  rw [exec, execDecResp, withFrameOperand_of_long s _ h]

theorem exec_parseReq_of_long {bs : List Byte} (s : State) (h : 256 < bs.length) :
    exec (.parseReq (.presented bs)) s = .refused .frameTooLong := by
  rw [exec, execParseReq, withFrameOperand_of_long s _ h]

theorem advance_of_refused {s : State} {r : Refusal} (h : s.marked = false) (hr : step s = .refused r) :
    advance s = s.markRefused := by
  rw [advance, if_neg (Bool.eq_false_iff.1 h), hr]

/-- Settles O52: the refused instructions by cases, the decoder's rejections, and the mark as for a fault (O51). -/
theorem refusalsAreExactlyThoseListed : Obligations.RefusalsAreExactlyThoseListed := by
  refine ⟨fun i s hi hs => ⟨fun ⟨r, h⟩ => listedRefusal_of_exec hi hs h, exec_of_listedRefusal hi hs⟩, exec_reserved,
    fun sa fc ra q s hf => exec_encReq_of_unsupported sa ra q s (mt (blockCode_iff fc).2 hf),
    fun b sa fc q s hb hs hf => exec_decResp_of_not_blockCode sa q hb hs hf,
    fun b sa fc q s hb hs hf hq => exec_decResp_of_blockCode_not_inRange sa hb hs hf hq,
    fun bs sa fc q s hl => ⟨exec_decResp_of_long sa fc q s hl, exec_parseReq_of_long s hl⟩,
    fun c rest s hfault hrefused hp => ?rejected, fun s r hfault hrefused h => ?marks, fun s n hmark => ?kept⟩
  case rejected =>
    have hm := marked_eq_false hfault hrefused
    intro tooLong
    refine ⟨fun ⟨hcmd, b, hb, hl⟩ => step_of_decode_error hm hp (decode_of_long_frame hcmd hb hl), fun hshort hwide => ?_⟩
    have hfits (hcmd : c.cmd = 0x20 ∨ c.cmd = 0x21) (b : BufInput) (hb : c.buf = some b) : b.len ≤ 256 :=
      Nat.not_lt.1 fun hl => hshort ⟨hcmd, b, hb, hl⟩
    refine step_of_decode_error hm hp (err := .operandTooWide) ?_
    obtain hword | ⟨hcmd, hb⟩ | ⟨hcmd, hw⟩ | ⟨hcmd, hw⟩ | ⟨hcmd, b, hb, hw⟩ := hwide
    · exact decode_of_wide_word hword
    · rw [decode_crcUpdate hcmd, if_neg (by omega)]
    · rw [decode_encReq hcmd, if_neg (by omega)]
    · exact decode_decResp_of_wide hcmd (hfits (.inl hcmd)) hw
    · exact decode_of_wide_frame hcmd hb (hfits hcmd b hb) hw
  case marks =>
    rw [advance_of_refused (marked_eq_false hfault hrefused) h]
    exact ⟨rfl, rfl⟩
  case kept =>
    rw [advances_of_marked n (by simp [hmark])]
    exact ⟨hmark, rfl, hmark⟩

end Sys2Proof.Machine
end

