-- ==== Sys2Proof/Proofs/FrameInputBuffer.lean ====
section
/-!
SUPPORT. The frame input buffer through an instruction (R22, R40, R41, R52): what a frame handed over leaves in it, what the
next command makes of that frame, and that nothing is left of it afterwards.
-/

namespace Sys2Proof.Machine

open Claims

/-! ## The bytes of the buffer after a fill -/

theorem State.bufRead_fill_of_lt (s : State) {bs : List Byte} {a : Nat} (h : a < bs.length) :
    (s.fill bs).bufRead a = bs.getD a 0#8 :=
  (Memory.read_store_stored s.buf bs a h).trans (List.getD_eq_getElem _ _ h).symm

theorem State.bufRead_fill_of_ge (s : State) {bs : List Byte} {a : Nat} (h : bs.length ≤ a) :
    (s.fill bs).bufRead a = s.bufRead a := Memory.read_store_other s.buf bs a h

/-! ## The frame of every instruction -/

/-- All that a frame row can do when it answers a next state, as the claims name a frame row. -/
theorem exec_notCommand_cases {i : Instr} {s t : State} (hi : isCommand i = false) (h : exec i s = .next t) :
    t = s.fill (frameBytes i) := (exec_frameRow_cases (frameBytes_ne_nil hi) h).2

/-- A command that completes leaves the buffer unfilled and adds one result. -/
theorem exec_isCommand_cases {i : Instr} {s t : State} (hi : isCommand i = true) (h : exec i s = .next t) :
    t.buf = [] ∧ t.len = 0 ∧ ∃ r, t.results = s.results ++ [r] := by
  obtain ⟨c, v, r, rfl, -⟩ := exec_command_cases (frameBytes_eq_nil hi) h
  exact ⟨rfl, rfl, r, rfl⟩

/-- No instruction touches a mark or the host's queue. -/
theorem exec_marks_pending {i : Instr} {s t : State} (h : exec i s = .next t) :
    t.faultMark = s.faultMark ∧ t.refusedMark = s.refusedMark ∧ t.pending = s.pending := by
  cases hi : isCommand i with
  | false =>
    obtain rfl := exec_notCommand_cases hi h
    exact ⟨rfl, rfl, rfl⟩
  | true =>
    obtain ⟨c, v, r, rfl, -⟩ := exec_command_cases (frameBytes_eq_nil hi) h
    exact ⟨rfl, rfl, rfl⟩

/-- Settles O53: the registers by the cases of what an instruction does to them, the buffer and the results by whether it is
a command. -/
theorem eachInstructionsFrame : Obligations.EachInstructionsFrame := by
  intro i s t h
  obtain ⟨hfault, hrefused, hpending⟩ := exec_marks_pending h
  refine ⟨hfault, hrefused, hpending, fun hinit => by simp [exec_crcValid h, hinit],
    fun hinit hupd => onlyTheCrcCommandsTouchTheAccumulator.1 i s t h hinit hupd, fun hi => ?command, fun hi => ?frame⟩
  case command =>
    obtain ⟨hbuf, hlen, hr⟩ := exec_isCommand_cases hi h
    exact ⟨hr, hlen, fun a => by rw [State.bufRead, hbuf]; rfl⟩
  case frame =>
    obtain rfl := exec_notCommand_cases hi h
    exact ⟨rfl, rfl, fun a ha => s.bufRead_fill_of_lt ha, fun a ha => s.bufRead_fill_of_ge ha⟩

/-! ## A frame handed over -/

theorem wordBytes_eq_flatMap (ws : List Half) :
    wordBytes ws = ws.flatMap (fun w => [w.extractLsb' 8 8, w.extractLsb' 0 8]) := by
  induction ws with
  | nil => rfl
  | cons w ws ih => rw [wordBytes, ih]; rfl

/-- A frame row puts its bytes in the buffer, and changes nothing else. -/
theorem exec_frameRow_stands {i : Instr} {bs : List Byte} (hi : isCommand i = false)
    (hfits : (frameBytes i).length ≤ Config.frameBufBytes) (hbs : frameBytes i = bs) (s : State) :
    ∃ t : State, exec i s = .next t ∧ t.len = bs.length ∧ t.frame = bs ∧
      (∀ a, bs.length ≤ a → t.bufRead a = s.bufRead a) ∧ t = { s with buf := t.buf, len := t.len } := by
  subst hbs
  exact ⟨_, exec_frameRow_of_le s hi hfits, rfl, s.frame_fill _, fun a ha => s.bufRead_fill_of_ge ha, rfl⟩

/-- The response row's bytes as the claim writes them. -/
theorem respBody_append_littleEndian (sa fc : Byte) (ws : List Half) (c : Half) :
    respBody sa fc ws ++ littleEndian c =
      [sa, fc, BitVec.ofNat 8 (2 * ws.length)] ++ ws.flatMap (fun w => [w.extractLsb' 8 8, w.extractLsb' 0 8]) ++
        [c.extractLsb' 0 8, c.extractLsb' 8 8] := by
  rw [respBody, wordBytes_eq_flatMap]
  rfl

/-- Settles O39: the bytes of each row's layout, and that each row fits the buffer. -/
theorem handedFrameStandsInTheBuffer : Obligations.HandedFrameStandsInTheBuffer := by
  refine ⟨fun sa ra q c => ⟨?_, ?_⟩, fun sa ws c _ hmax => ?response, fun sa e c => ⟨?_, ?_⟩, fun sa f e c => ?_⟩
  case response =>
    obtain ⟨hfits3, hfits4⟩ := length_responseRow_le sa c hmax
    exact ⟨exec_frameRow_stands rfl hfits3 (respBody_append_littleEndian sa _ ws c),
      exec_frameRow_stands rfl hfits4 (respBody_append_littleEndian sa _ ws c)⟩
  · exact exec_frameRow_stands rfl (length_frameBytes_le rfl) rfl
  · exact exec_frameRow_stands rfl (length_frameBytes_le rfl) rfl
  · exact exec_frameRow_stands rfl (length_frameBytes_le rfl) rfl
  · exact exec_frameRow_stands rfl (length_frameBytes_le rfl) rfl
  · exact exec_frameRow_stands rfl (length_exceptionRow_le sa f e c) rfl

/-! ## The command after a frame handed over -/

section
variable {i : Instr} {r : Result} (hi : isCommand i = false)
  (hfits : (frameBytes i).length ≤ Config.frameBufBytes)
include hi hfits

theorem exec_frameRow_then_parseReq (hr : parseReqResult (frameBytes i) = r) (s : State) :
    ∃ t : State, exec i s = .next t ∧ Returns (.parseReq .held) t t r := by
  refine ⟨_, exec_frameRow_of_le s hi hfits,
    (returns_parseReq_iff (buf := .held) (s := s.fill (frameBytes i)) r hfits).2 ?_⟩
  rw [State.present_held, State.frame_fill, hr]

theorem exec_frameRow_then_decResp {sa fc : Byte} {q : Half} (hf : supportedFunction fc = true)
    (hq : quantityInRange q = true) (hr : decRespResult Config.excMatch (frameBytes i) sa fc q = r) (s : State) :
    ∃ t : State, exec i s = .next t ∧ Returns (.decResp .held sa fc q) t t r := by
  refine ⟨_, exec_frameRow_of_le s hi hfits,
    (returns_decResp_iff (buf := .held) (s := s.fill (frameBytes i)) sa r hfits hf hq).2 ?_⟩
  rw [State.present_held, State.frame_fill, hr]

end

/-- DEC_RESP of an exception frame that is not the expected function code's: `EXC_MATCH` decides (R133). -/
theorem decRespResult_excBody_other (m : ExcMatch) (sa : Byte) {f : Byte} (e : Byte) {fc : Byte} (q : Half)
    (hmsb : f.msb = true) (hne : f ≠ fc ||| 0x80#8) :
    decRespResult m (withCrc (excBodyRaw sa f e)) sa fc q =
      if m = .strict then .frameError .functionMismatch else .deviceExceptionError e := by
  have hlen : (withCrc (excBodyRaw sa f e)).length = 5 := length_withCrc _
  refine (decRespResult_of_crcOk m fc q hlen.ge (crcOk_withCrc _)).trans ((if_pos hmsb).trans ?_)
  cases m with
  | strict => exact (exceptionResult_strict _ fc).trans (if_neg hne)
  | bit7 => exact (exceptionResult_bit7 _ fc).trans (if_pos hlen)

/-- Settles O40: each row's bytes are a frame with a correct CRC field, of which the command's result is known. -/
theorem handedFramesAreParsedByTheirKind : Obligations.HandedFramesAreParsedByTheirKind := by
  refine ⟨fun sa ra q hq => ?request, fun sa ws q hq hlen => ?response, fun sa e q hq => ?exception,
    fun sa f e fc q hq hf hmsb hne => ?other⟩
  all_goals rw [inRange_iff] at hq
  case request =>
    exact ⟨exec_frameRow_then_parseReq rfl (length_frameBytes_le rfl) (parseReqResult_reqFrame sa ra (by decide) hq),
      exec_frameRow_then_parseReq rfl (length_frameBytes_le rfl) (parseReqResult_reqFrame sa ra (by decide) hq)⟩
  case response =>
    have hmax : ws.length ≤ 125 := hlen.trans_le ((quantityInRange_iff q).1 hq).2
    have hres (fc : Byte) (hf : supportedFunction fc = true) := decRespResult_respFrame Config.excMatch sa hf hq hlen
    exact ⟨exec_frameRow_then_decResp rfl (length_responseRow_le sa _ hmax).1 (by decide) hq (hres 0x03#8 (by decide)),
      exec_frameRow_then_decResp rfl (length_responseRow_le sa _ hmax).2 (by decide) hq (hres 0x04#8 (by decide))⟩
  case exception =>
    have hres (fc : Byte) := decRespResult_excFrame Config.excMatch sa fc e q
    exact ⟨exec_frameRow_then_decResp rfl (length_frameBytes_le rfl) (by decide) hq (hres 0x03#8),
      exec_frameRow_then_decResp rfl (length_frameBytes_le rfl) (by decide) hq (hres 0x04#8)⟩
  case other =>
    have hres := decRespResult_excBody_other Config.excMatch sa e q hmsb hne
    refine exec_frameRow_then_decResp rfl (length_exceptionRow_le sa f e _) ((blockCode_iff fc).1 hf) hq (hres.trans ?_)
    cases Config.excMatch with
    | strict => rfl
    | bit7 => rfl

/-! ## Bytes that are never read -/

/-- Buffers that agree below `len` hold the same frame. -/
theorem frame_withBuf {s : State} {m : Memory} (h : ∀ i, i < s.len → Memory.read m i = s.bufRead i) :
    State.frame { s with buf := m } = s.frame :=
  List.map_congr_left fun i hi => h i (List.mem_range.1 hi)

/-- Settles O41: DEC_RESP and PARSE_REQ depend on the buffer through its frame. -/
theorem bytesAboveTheLengthHaveNoEffect : Obligations.BytesAboveTheLengthHaveNoEffect := by
  intro s m h
  exact ⟨exec_parseReq_congr (frame_withBuf h) rfl, fun sa fc q => exec_decResp_congr sa fc q (frame_withBuf h) rfl⟩

/-! ## No frame survives a command -/

/-- A command that brings its operands, or reads none, depends on the state through all but the buffer. -/
theorem exec_congr_releaseFrame {i : Instr} {s s' : State} (hi : isCommand i = true) (hread : readsHeldFrame i = false)
    (h : s.releaseFrame = s'.releaseFrame) : exec i s = exec i s' := by
  have hcrc : s.crc = s'.crc := by simpa using congrArg State.crc h
  have hvalid : s.crcValid = s'.crcValid := by simpa using congrArg State.crcValid h
  cases i with
  | crcInit => rw [exec_crcInit, exec_crcInit, h]
  | crcUpdate b =>
    cases hv : s.crcValid with
    | false => rw [exec_crcUpdate_invalid b hv, exec_crcUpdate_invalid b (hvalid ▸ hv)]
    | true => rw [exec_crcUpdate_valid b hv, exec_crcUpdate_valid b (hvalid ▸ hv), h, hcrc]
  | crcRead =>
    cases hv : s.crcValid with
    | false => rw [exec_crcRead_invalid hv, exec_crcRead_invalid (hvalid ▸ hv)]
    | true => rw [exec_crcRead_valid hv, exec_crcRead_valid (hvalid ▸ hv), h, hcrc]
  | encReq sa fc ra q => rw [exec_encReq, exec_encReq, h]
  | decResp buf sa fc q =>
    cases buf with
    | held => cases hread
    | presented bs => exact exec_decResp_congr sa fc q (by simp) h
  | parseReq buf =>
    cases buf with
    | held => cases hread
    | presented bs => exact exec_parseReq_congr (by simp) h
  | reserved cmd => rfl
  | _ => cases hi

/-- The frame in the buffer is read as if the command brought it. -/
theorem exec_held_eq_presented {s t : State} {bs : List Byte} (hframe : t.frame = bs)
    (hrelease : t.releaseFrame = s.releaseFrame) :
    exec (.parseReq .held) t = exec (.parseReq (.presented bs)) s ∧
      ∀ sa fc q, exec (.decResp .held sa fc q) t = exec (.decResp (.presented bs) sa fc q) s := by
  have hpresented : (t.present .held).frame = (s.present (.presented bs)).frame := by simpa using hframe
  exact ⟨exec_parseReq_congr hpresented hrelease, fun sa fc q => exec_decResp_congr sa fc q hpresented hrelease⟩

/-- Settles O60: what a command leaves, what it depends on, and that a frame in the buffer is read as if the command brought
it. -/
theorem noFrameSurvivesACommand : Obligations.NoFrameSurvivesACommand := by
  refine ⟨fun i s t hi h => ?left, fun i s m n hi hread => exec_congr_releaseFrame hi hread rfl, fun i s t hi h => ?handed⟩
  case left =>
    obtain ⟨hbuf, hlen, -⟩ := exec_isCommand_cases hi h
    have hframe : t.frame = [] := by rw [State.frame, hlen]; rfl
    exact ⟨hbuf, hlen, hframe, exec_held_eq_presented hframe rfl⟩
  case handed =>
    obtain rfl := exec_notCommand_cases hi h
    exact exec_held_eq_presented (s.frame_fill _) (s.releaseFrame_fill _)

end Sys2Proof.Machine
end

