-- ==== Sys2Proof/Proofs/StepsAndRuns.lean ====
section
/-!
SUPPORT. The step (R190, R200): what it runs, the invariant it keeps, and a run over the encodings of instructions as those
instructions one after another.
-/

namespace Sys2Proof.Machine

open Claims

/-! ## What a step runs -/

theorem decode_of_decodeTableWord {nbits w : Nat} {i : Instr} (h : decodeTableWord nbits w = some i) :
    decode (tableWord nbits w) = .ok i := by
  unfold decodeTableWord at h
  split at h
  · cases h
    assumption
  · cases h

/-- Settles O56: the step that accepts what the host presents, also when `withFetchWord` placed it there. -/
theorem stepRunsThePresentedInstruction : Obligations.StepRunsThePresentedInstruction := by
  refine ⟨fun s e rest i hfault hrefused hp hd => ?_, fun s nbits w i hfault hrefused hd => ?_⟩
  · exact step_present_of_decode (marked_eq_false hfault hrefused) hp hd
  · exact step_present_of_decode (s := s.withFetchWord nbits w) (marked_eq_false hfault hrefused) rfl
      (decode_of_decodeTableWord hd)

/-- Settles O54: the step that takes a reset, and the step with nothing presented. -/
theorem resetClearsOnlyCrcValid : Obligations.ResetClearsOnlyCrcValid := by
  refine ⟨fun s rest hfault hrefused hp => ?_, fun s => ⟨rfl, rfl, rfl⟩, fun s hfault hrefused hp => ?_, rfl, rfl, rfl, ?_⟩
  · exact ⟨_, step_reset (marked_eq_false hfault hrefused) hp, rfl, rfl⟩
  · exact step_idle (marked_eq_false hfault hrefused) hp
  · exact step_idle rfl rfl

/-! ## The invariant -/

/-- Settles O59. -/
theorem resetMeetsTheInvariant : Obligations.ResetMeetsTheInvariant :=
  ⟨⟨rfl, Nat.zero_le _⟩, fun _ hr => absurd hr List.not_mem_nil⟩

theorem encReqResult_legal (sa fc : Byte) (ra q : Half) : LegalResult (encReqResult sa fc ra q) := by
  by_cases hq : quantityInRange q = true
  · rw [encReqResult_of_inRange sa fc ra hq]
    exact ⟨length_withCrc _, crcOk_withCrc _⟩
  · rw [encReqResult_of_not_inRange sa fc ra hq]
    trivial

theorem decRespResult_legal (m : ExcMatch) (f : List Byte) (sa fc : Byte) {q : Half} (hq : quantityInRange q = true) :
    LegalResult (decRespResult m f sa fc q) := by
  obtain ⟨e, he, -⟩ | ⟨hx, -⟩ | ⟨hw, -⟩ := decRespResult_cases m f sa fc q
  · rw [he]
    trivial
  · rw [hx]
    trivial
  · rw [hw]
    simpa [LegalResult] using (quantityInRange_iff q).1 hq

theorem parseReqResult_legal (f : List Byte) : LegalResult (parseReqResult f) := by
  obtain ⟨e, he, -⟩ | ⟨hr, -, -, hf, hq⟩ := parseReqResult_cases f
  · rw [he]
    trivial
  · rw [hr]
    exact ⟨hf, hq⟩

/-- A command that completes returns a legal result (R28). -/
theorem exec_isCommand_legal {i : Instr} {s t : State} (hi : isCommand i = true) (h : exec i s = .next t) :
    ∃ r, t.results = s.results ++ [r] ∧ LegalResult r := by
  cases i with
  | crcInit => rw [exec_crcInit] at h; cases h; exact ⟨_, rfl, trivial⟩
  | crcUpdate b => obtain ⟨-, rfl⟩ := exec_crcUpdate_cases h; exact ⟨_, rfl, trivial⟩
  | crcRead => obtain ⟨-, rfl⟩ := exec_crcRead_cases h; exact ⟨_, rfl, trivial⟩
  | encReq sa fc ra q => obtain ⟨-, rfl⟩ := exec_encReq_cases h; exact ⟨_, rfl, encReqResult_legal sa fc ra q⟩
  | decResp buf sa fc q =>
    obtain ⟨-, -, hq, rfl⟩ := exec_decResp_cases h
    exact ⟨_, rfl, decRespResult_legal _ _ sa fc hq⟩
  | parseReq buf => obtain ⟨-, rfl⟩ := exec_parseReq_cases h; exact ⟨_, rfl, parseReqResult_legal _⟩
  | reserved => cases h
  | _ => cases hi

theorem stateInv_handFrame {s t : State} {bs : List Byte} (hs : StateInv s) (h : s.handFrame bs = .next t) :
    StateInv t := by
  obtain ⟨hfits, rfl⟩ := handFrame_cases h
  exact ⟨State.bufferOk_fill bs hs.1 hfits, hs.2⟩

theorem stateInv_exec {i : Instr} {s t : State} (hs : StateInv s) (h : exec i s = .next t) : StateInv t := by
  cases hi : isCommand i with
  | false => exact stateInv_handFrame hs (exec_frameRow i s (frameBytes_ne_nil hi) ▸ h)
  | true =>
    obtain ⟨hbuf, hlen, -⟩ := exec_isCommand_cases hi h
    obtain ⟨r, hr, hlegal⟩ := exec_isCommand_legal hi h
    refine ⟨⟨by rw [hbuf]; rfl, by rw [hlen]; exact Nat.zero_le _⟩, ?_⟩
    simpa [ResultsLegal, hr, or_imp, forall_and, hlegal] using hs.2

/-- Settles O58: the cases of a step. -/
theorem everyStepKeepsTheInvariant : Obligations.EveryStepKeepsTheInvariant := by
  intro s t hs h
  obtain ⟨-, ⟨-, rfl⟩ | ⟨rest, -, rfl⟩ | ⟨e, rest, i, -, -, hexec⟩ | ⟨fmt, bytes, rest, -, -, hhand⟩⟩ := step_cases h
  · exact hs
  · exact hs
  · exact stateInv_exec (s := s.withPending rest) hs hexec
  · exact stateInv_handFrame (s := s.withPending rest) hs hhand

/-! ## The host's queue is not read by an instruction -/

section
variable (rest : List HostInput) (s : State)

@[simp] theorem State.withPending_emit (r : Result) : (s.withPending rest).emit r = (s.emit r).withPending rest := rfl
@[simp] theorem State.withPending_fill (bs : List Byte) :
    (s.withPending rest).fill bs = (s.fill bs).withPending rest := rfl
@[simp] theorem State.withPending_releaseFrame :
    (s.withPending rest).releaseFrame = s.releaseFrame.withPending rest := rfl
@[simp] theorem State.withPending_present (buf : BufOperand) :
    (s.withPending rest).present buf = (s.present buf).withPending rest := by cases buf <;> rfl

/-- Presenting a frame operand does not read the queue, so the whole does not where the rest does not. -/
theorem withFrameOperand_withPending {k : State → Host.Outcome State Fault Refusal} (buf : BufOperand)
    (hk : ∀ t : State, k (t.withPending rest) = mapNext (State.withPending · rest) (k t)) :
    withFrameOperand buf (s.withPending rest) k = mapNext (State.withPending · rest) (withFrameOperand buf s k) := by
  unfold withFrameOperand
  rw [State.withPending_present, State.withPending_len]
  split
  · rfl
  · exact hk _

theorem exec_decResp_withPending (buf : BufOperand) (sa fc : Byte) (q : Half) :
    exec (.decResp buf sa fc q) (s.withPending rest) =
      mapNext (State.withPending · rest) (exec (.decResp buf sa fc q) s) := by
  simp only [exec, execDecResp]
  refine withFrameOperand_withPending rest s buf fun t => ?_
  split
  · rfl
  · split
    · rfl
    · simp

theorem exec_parseReq_withPending (buf : BufOperand) :
    exec (.parseReq buf) (s.withPending rest) = mapNext (State.withPending · rest) (exec (.parseReq buf) s) := by
  simp only [exec, execParseReq]
  exact withFrameOperand_withPending rest s buf fun t => by simp

theorem exec_frameRow_withPending {i : Instr} (hi : isCommand i = false) :
    exec i (s.withPending rest) = mapNext (State.withPending · rest) (exec i s) := by
  rw [exec_frameRow i _ (frameBytes_ne_nil hi), exec_frameRow i _ (frameBytes_ne_nil hi)]
  unfold State.handFrame
  split <;> simp

/-- An instruction does the same whatever the host has queued behind it. -/
theorem exec_withPending (i : Instr) :
    exec i (s.withPending rest) = mapNext (State.withPending · rest) (exec i s) := by
  cases i with
  | crcInit => rfl
  | crcUpdate b =>
    cases hv : s.crcValid with
    | false => rw [exec_crcUpdate_invalid b hv, exec_crcUpdate_invalid (s := s.withPending rest) b hv]; rfl
    | true => rw [exec_crcUpdate_valid b hv, exec_crcUpdate_valid (s := s.withPending rest) b hv]; rfl
  | crcRead =>
    cases hv : s.crcValid with
    | false => rw [exec_crcRead_invalid hv, exec_crcRead_invalid (s := s.withPending rest) hv]; rfl
    | true => rw [exec_crcRead_valid hv, exec_crcRead_valid (s := s.withPending rest) hv]; rfl
  | encReq sa fc ra q =>
    rw [exec_encReq, exec_encReq]
    split <;> rfl
  | decResp buf sa fc q => exact exec_decResp_withPending rest s buf sa fc q
  | parseReq buf => exact exec_parseReq_withPending rest s buf
  | reserved => rfl
  | _ => exact exec_frameRow_withPending rest s rfl

end

/-! ## Runs -/

/-- The step that accepts the encoding of a well-formed instruction runs it. -/
theorem step_present_encode {i : Instr} {s : State} (rest : List HostInput) (hi : i.wf = true) (hm : s.marked = false) :
    step (s.withPending (.present (encode i) :: rest)) = mapNext (State.withPending · rest) (exec i s) :=
  (step_present_of_decode (s := s.withPending (.present (encode i) :: rest)) hm rfl
    (decodeOfEncodeIsTheInstruction i hi)).trans (exec_withPending rest s i)

theorem advance_of_next {s t : State} (h : s.marked = false) (ht : step s = .next t) : advance s = t := by
  rw [advance, if_neg (Bool.eq_false_iff.1 h), ht]

/-- What the end `e` of a run says of the instructions run: the state they complete in, with nothing left of the queue, or
the mark of what stopped them. -/
def EndsAs (e : State) : Host.Outcome State Fault Refusal → Prop
  | .next t => e = t.withPending []
  | .fault _ => e.faultMark = true
  | .refused _ => e.refusedMark = true

theorem exec_marked {i : Instr} {s t : State} (h : exec i s = .next t) : t.marked = s.marked := by
  obtain ⟨hfault, hrefused, -⟩ := exec_marks_pending h
  rw [State.marked_eq, State.marked_eq, hfault, hrefused]

/-- The host's queue that presents the encodings of instructions, in order. -/
def presentAll (is : List Instr) : List HostInput := (is.map encode).map .present

/-- As many steps as there are instructions in the queue run them one after another. -/
theorem advances_endsAs_execSeq {is : List Instr} {s : State} (hwf : ∀ i ∈ is, i.wf = true) (hm : s.marked = false) :
    EndsAs (advances is.length (s.withPending (presentAll is))) (execSeq is s) := by
  induction is generalizing s with
  | nil => exact rfl
  | cons i is ih =>
    obtain ⟨hi, his⟩ := List.forall_mem_cons.1 hwf
    have hstep := step_present_encode (presentAll is) hi hm
    have hmark : (s.withPending (.present (encode i) :: presentAll is)).marked = false := hm
    change EndsAs (advances is.length (advance (s.withPending (.present (encode i) :: presentAll is)))) _
    rw [execSeq]
    cases hexec : exec i s with
    | next u =>
      rw [hexec, mapNext_next] at hstep
      rw [advance_of_next hmark hstep]
      exact ih his ((exec_marked hexec).trans hm)
    | fault f =>
      rw [hexec, mapNext_fault] at hstep
      rw [advance_of_fault hmark hstep, advances_of_marked _ (by simp)]
      rfl
    | refused r =>
      rw [hexec, mapNext_refused] at hstep
      rw [advance_of_refused hmark hstep, advances_of_marked _ (by simp)]
      rfl

/-- A sequence that completes touches no mark and not the host's queue. -/
theorem execSeq_marks_pending {is : List Instr} {s t : State} (h : execSeq is s = .next t) :
    t.faultMark = s.faultMark ∧ t.refusedMark = s.refusedMark ∧ t.pending = s.pending := by
  induction is generalizing s with
  | nil =>
    cases h
    exact ⟨rfl, rfl, rfl⟩
  | cons i is ih =>
    obtain ⟨u, hu, hrest⟩ := execSeq_cons_cases h
    obtain ⟨hfault, hrefused, hpending⟩ := ih hrest
    obtain ⟨hfault', hrefused', hpending'⟩ := exec_marks_pending hu
    exact ⟨hfault.trans hfault', hrefused.trans hrefused', hpending.trans hpending'⟩

theorem not_successful_of_marked {s : State} (h : s.marked = true) : ¬ Successful s := by
  rintro ⟨hfault, hrefused, -⟩
  rw [marked_eq_false hfault hrefused] at h
  cases h

theorem State.withPending_self {s : State} {rest : List HostInput} (h : s.pending = rest) : s.withPending rest = s := by
  rw [← h]
  rfl

/-- The end of a run over the encodings of well-formed instructions. -/
theorem runEnd_endsAs {is : List Instr} (hwf : ∀ i ∈ is, i.wf = true) :
    EndsAs (runEnd (is.map encode)) (execSeq is State.reset) := by
  rw [runEnd, List.length_map]
  exact advances_endsAs_execSeq hwf rfl

/-- Settles O57: the three ways a run can end. -/
theorem runIsItsInstructionsInOrder : Obligations.RunIsItsInstructionsInOrder := by
  intro is hwf
  have hend := runEnd_endsAs hwf
  refine ⟨fun t h => ?completes, fun f h => ?faults, fun r h => ?refused⟩
  all_goals rw [h] at hend
  case completes =>
    obtain ⟨hfault, hrefused, hpending⟩ := execSeq_marks_pending h
    exact ⟨hend.trans (State.withPending_self hpending), hfault, hrefused, hpending⟩
  case faults =>
    have hmark : (runEnd (is.map encode)).faultMark = true := hend
    exact ⟨hmark, not_successful_of_marked (by simp [hmark])⟩
  case refused =>
    have hmark : (runEnd (is.map encode)).refusedMark = true := hend
    exact ⟨hmark, not_successful_of_marked (by simp [hmark])⟩

end Sys2Proof.Machine
end
